-- ==== Sys2Proof/Word.lean ====
section
/-! DEFINITION. The widths of the F32A: 8-bit data bytes, 16-bit sums, 32-bit registers and addresses
(00_scope.md R9, R10; 20_memory.md R50, R51). -/

namespace Sys2Proof

/-- A byte of data memory (R51). -/
abbrev Byte := BitVec 8

/-- A stored sum, SUM_W = 16 bits (R9, R20). -/
abbrev Half := BitVec 16

/-- A 32-bit interface register, latch or working register (R10, R25, R36, R37). -/
abbrev Word := BitVec 32

end Sys2Proof
end

