-- ==== Sys2Proof/Config.lean ====
section
/-! DEFINITION. The constants the spec fixes (00_scope.md R9, R10) and the free values of what it leaves open. The open
parameters NUM_CTX, REG_BASE and Readable are data of the machine (Machine/State.lean), so that every statement about all
states holds for all of them. -/

namespace Sys2Proof.Config

/-- The reduction modulus M of both sums (R9). -/
def modulus : Nat := 0xFFFF

/-- The value SEED of both sums after INIT (R9, R104). -/
def seed : Half := 0xFFFF

/-- N, the largest number of bytes folded between two reductions (R9, R106). -/
def batchBound : Nat := 5552

/-- SUB, the source's sub-block size; it has no semantic meaning (R9, R153). -/
def subBlock : Nat := 16

/-- The number of data addresses, 2 ^ ADDR_W (R10, R50). -/
def addressCount : Nat := 2 ^ 32

/-- NULL_ADDR (R10, R57). -/
def nullAddr : Word := 0

/-- The registers that hold no specified value between commands (R36, R37). -/
inductive IdleReg where
  | lW | lAddr | lLen | w1 | w2 | ptr | rem
  deriving DecidableEq, Repr

/-- FREE VALUE (log 16): what a latch or a working register holds after a command has ended. The spec leaves it unspecified
(R36, R37, 93 I4). The first argument is the number of the group of draws. -/
opaque idleWord : Nat → IdleReg → Word

/-- FREE VALUE (log 16): what RUN holds after a command has ended, before it is brought into its range 0 to N (R37). -/
opaque idleRun : Nat → Nat

/-- FREE VALUE (log 1): how many host statements are served while the command issued under this draw is in flight. The spec
gives no bound on the duration of BUSY (R200, 93 I10). -/
opaque busyDelay : Nat → Nat

/-- FREE VALUE (log 7): the byte an UPDATE folds for an address that was written while it was in flight, or that lies in a
region whose reads have side effects (R67 clause 3, R68, R194). -/
opaque drawnByte : Nat → Word → Byte

end Sys2Proof.Config
end

