-- ==== Sys2Proof/Machine/State.lean ====
section
/-! DEFINITION. The state of the F32A and of the host that drives it, as plain data (10_state.md; INVENTORY.md lists every
field with its rule), and the state after reset (70_reset_and_hazards.md R185). -/

namespace Sys2Proof.Machine

/-- One accumulator context (R20). -/
structure Context where
  sum1 : Half
  sum2 : Half
  live : Bool
  deriving DecidableEq, Repr

/-- The STATUS register: BUSY is bit 0, OVR is bit 1, the other bits are reserved and read 0 (R29). -/
structure Status where
  busy : Bool
  ovr : Bool
  deriving DecidableEq, Repr

/-- The operand latches of an accepted issue (R36): the command word, ADDR and LEN. -/
structure Latch where
  w : Word
  addr : Word
  len : Word
  deriving DecidableEq, Repr

/-- The working registers of the pipeline (R37, R140). RUN is 13 bits wide. -/
structure Pipe where
  w1 : Word
  w2 : Word
  ptr : Word
  rem : Word
  run : BitVec 13
  deriving DecidableEq, Repr

/-- A range of data addresses: `size` bytes from `base`. -/
structure Region where
  base : Nat
  size : Nat
  deriving DecidableEq, Repr

/-- The steps a schedule of the pipeline is made of (R145): ACC, RED, and a beat, which folds `k` bytes at once (R153). -/
inductive Micro where
  | acc
  | red
  | beat (k : Nat)
  deriving DecidableEq, Repr

/-- What an implementation and its platform fix. `regBase` is REG_BASE and `readable` is the predicate Readable (R10, R55,
R60). `sideEffects` names the data regions whose reads have side effects (R194; DEDUCED, log 9). `schedule` lists the
steps the pipeline prefers to take (R145, R153, 93 I12; DESIGN CHOICE, safe, log 10); `[]` is the reference schedule. -/
structure Params where
  regBase : Nat
  readable : List Region
  sideEffects : List Region
  schedule : List Micro
  deriving DecidableEq, Repr

/-- The eight registers of the window, in the order of their offsets (R25). -/
inductive HostReg where
  | cmd | addr | len | status | code | result | config | reserved
  deriving DecidableEq, Repr

/-- The width of a host access (R56). -/
inductive Size where
  | byte | half | word | double
  deriving DecidableEq, Repr

/-- One action of the host (R84). `write` and `read` are bus accesses at an address of the host's address space; `write`
carries the 32-bit value of a word access, the only access the window defines (R56). `wait` is the loop of STATUS reads.
`store` places one byte in data memory and `load` reads one (R8). `reset` asserts the reset of the F32A (R186, R197). -/
inductive HostStmt where
  | write (addr : Nat) (size : Size) (value : Word)
  | read (addr : Nat) (size : Size)
  | wait
  | store (addr : Word) (value : Byte)
  | load (addr : Word)
  | reset
  deriving DecidableEq, Repr

/-- A value the host has read: a register's (R66, R84), or a byte of data memory (R8). -/
inductive HostRead where
  | reg (r : HostReg) (value : Word)
  | data (addr : Word) (value : Byte)
  deriving DecidableEq, Repr

/-- Data memory: the bytes that differ from what an unlisted address reads as, addresses strictly rising (R50). -/
abbrev Memory := List Host.Cell

/-- The whole machine. The fields from `host` on are the model's own: the host agent's pending statements and the values it
has read (logs 2 and 21), and the data that stand for what the spec leaves open (logs 1, 7, 13). -/
structure State where
  /-- The context file; `CTX[k]` is entry `k - 1`, and NUM_CTX is its length (R20; DESIGN CHOICE, log 3). -/
  ctx : List Context
  /-- ADDR (R27). -/
  addr : Word
  /-- LEN (R28). -/
  len : Word
  /-- STATUS (R29). -/
  status : Status
  /-- CODE (R30). -/
  code : Word
  /-- RESULT (R31). -/
  result : Word
  /-- L_W, L_ADDR, L_LEN (R36). -/
  latch : Latch
  /-- W1, W2, PTR, REM, RUN (R37). -/
  pipe : Pipe
  /-- Data memory (R50). -/
  mem : Memory
  /-- What the implementation and its platform fix (R10). -/
  params : Params
  /-- The host's statements still to be served, oldest first (R84). -/
  host : List HostStmt
  /-- What the host has read and the values it got, newest first (R8, R84). -/
  hostReads : List HostRead
  /-- Whether a read of STATUS has returned BUSY = 0 after the last accepted issue (R198); also true before the first one
  (log 21). -/
  idleSeen : Bool
  /-- How many host statements are still served before the command in flight completes (R200). -/
  delay : Nat
  /-- Data addresses the host stored to since the issue of the command in flight (R67 clause 3). -/
  raced : List Word
  /-- The number of the next group of free values. -/
  draws : Nat
  deriving DecidableEq, Repr

/-- Why the machine stops with a fault. The F32A has no trap and no state in which it stops: every error is a code in CODE
and the command completes (60_exceptions.md R168, R174; 41_commands.md R117). So no fault exists and nobody raises one
(DEDUCED, log 15; safe: nothing is hidden by a stop). -/
inductive Fault where
  deriving DecidableEq, Repr

/-- Why a step gives no next state. -/
inductive Refusal where
  /-- A command with no meaning in this model, by its mnemonic. Raised by nobody: all four commands and ILLEGAL have their
  meaning. Safe. -/
  | notModelled (mnemonic : String)
  /-- A host access that touches the register window and is not a 32-bit access at a 4-byte-aligned offset. Raised by
  `hostMove` for such a `read` or `write`; the spec leaves the response OPEN and asks for a refusal (20_memory.md R56,
  93 I6). Safe. -/
  | windowAccess
  deriving DecidableEq, Repr

/-- A context at reset: not live (R185). Its sums are unspecified there and take the named value 0 (DESIGN CHOICE,
unsafe, log 5). -/
def Context.atReset : Context := { sum1 := 0, sum2 := 0, live := false }

/-- The latches at reset: unspecified, the named value 0 (R185; DESIGN CHOICE, unsafe, log 6). -/
def Latch.atReset : Latch := { w := 0, addr := 0, len := 0 }

/-- The working registers at reset: unspecified, the named value 0 (R185; DESIGN CHOICE, unsafe, log 6). -/
def Pipe.atReset : Pipe := { w1 := 0, w2 := 0, ptr := 0, rem := 0, run := 0 }

/-- The reset state of an F32A with `numCtx` contexts on a platform with parameters `p` (R185), with nothing written to data
memory and a host that has nothing to do. -/
def State.resetWith (numCtx : Nat) (p : Params) : State where
  ctx := List.replicate numCtx Context.atReset
  addr := 0
  len := 0
  status := { busy := false, ovr := false }
  code := 0
  result := 0
  latch := Latch.atReset
  pipe := Pipe.atReset
  mem := []
  params := p
  host := []
  hostReads := []
  idleSeen := true
  delay := 0
  raced := []
  draws := 0

/-- The parameters of `State.reset`: the window at host address 0, every data address readable and free of side effects, the
reference schedule (DESIGN CHOICE, logs 4, 9, 10). -/
def Params.default : Params where
  regBase := 0
  readable := [{ base := 0, size := Config.addressCount }]
  sideEffects := []
  schedule := []

/-- The machine right after reset (R185), for the parameter values log 3 and log 4 name (DESIGN CHOICE):
NUM_CTX = 2. -/
def State.reset : State := State.resetWith 2 Params.default

end Sys2Proof.Machine
end

