-- ==== Sys2Proof/Machine/Arith.lean ====
section
/-! DEFINITION. The arithmetic of the F32A over the naturals: reduction, the conditional subtractor, the modular adder, the
per-byte step, the reference fold and the checksum (40_modular_arithmetic.md; 42_batched_pipeline.md R155). -/

namespace Sys2Proof.Machine

/-- `red(x) = x mod 0xFFFF` (R93). -/
def red (x : Nat) : Nat := x % Config.modulus

/-- A canonical sum value, in `[0, 0xFFFE]` (R16, R93). -/
def canonical (x : Nat) : Bool := x < Config.modulus

/-- The conditional subtractor (R94), for use on `csubDomain` only. -/
def csub (x : Nat) : Nat := if Config.modulus ≤ x then x - Config.modulus else x

/-- The domain of `csub`: `0 ≤ x ≤ 0x1FFFD` (R94). -/
def csubDomain (x : Nat) : Bool := x ≤ 0x1FFFD

/-- The modular adder (R96). -/
def addmod (a b : Nat) : Nat := csub (a + b)

/-- The per-byte step: the byte into sum1, then the new sum1 into sum2 (R97). -/
def foldByte (s : Nat × Nat) (b : Byte) : Nat × Nat :=
  let t1 := addmod s.1 b.toNat
  (t1, addmod s.2 t1)

/-- The reference fold `F(S, D)` (R100). -/
def fold : Nat × Nat → List Byte → Nat × Nat
  | s, [] => s
  | s, b :: d => fold (foldByte s b) d

/-- `Σ d_i` of a byte sequence (R102). -/
def byteSum : List Byte → Nat
  | [] => 0
  | b :: d => b.toNat + byteSum d

/-- `Σ (n − i + 1)·d_i` of a byte sequence: the first byte weighs `n`, the last byte 1 (R102). -/
def weightedSum : List Byte → Nat
  | [] => 0
  | b :: d => (d.length + 1) * b.toNat + weightedSum d

/-- The checksum `(zext_32(s2) << 16) | zext_32(s1)` (R107). -/
def ck (s1 s2 : Half) : Word := s2.setWidth 32 <<< 16 ||| s1.setWidth 32

/-- The sums of a context as the pair the fold works on (R100). -/
def Context.pair (c : Context) : Nat × Nat := (c.sum1.toNat, c.sum2.toNat)

/-- `f1 = x[31:16] + x[15:0]` of the division-free reduction (R155). -/
def endAroundOnce (x : Word) : Nat := (x.extractLsb' 16 16).toNat + (x.extractLsb' 0 16).toNat

/-- The division-free reduction (R155): `f2 = f1[16] + f1[15:0]`, and 0 when that is 0xFFFF. -/
def redEndAround (x : Word) : Nat :=
  let f1 := endAroundOnce x
  let f2 := f1 / 0x10000 % 2 + f1 % 0x10000
  if f2 = 0xFFFF then 0 else f2

end Sys2Proof.Machine
end

