-- ==== Sys2Proof/Syntax.lean ====
section
/-! DEFINITION. The commands of the F32A, one constructor per row of spec/opcode_table.json
(30_encoding.md R76, R80). -/

namespace Sys2Proof

/-- A decoded command. A handle is the unsigned number `w[15:8]` (R77). INIT has no operand: its HANDLE field is ignored
(R77, R82). -/
inductive Instr where
  /-- INIT, OP = 0x1 (R120). -/
  | init
  /-- UPDATE, OP = 0x2 (R125); its pointer and length are the latches, not fields of the word (R78). -/
  | update (h : Nat)
  /-- FINAL, OP = 0x3 (R129). -/
  | final (h : Nat)
  /-- FREE, OP = 0x4 (R132). -/
  | free (h : Nat)
  deriving DecidableEq, Repr

end Sys2Proof
end

