-- ==== Sys2Proof/WellFormed.lean ====
section
/-! DEFINITION. Which commands an encoding exists for: the handle fits the 8-bit HANDLE field (30_encoding.md R75, R77). -/

namespace Sys2Proof

/-- The handle space has 8 bits, 0 to 255 (10_state.md R23, HANDLE_W of R10). -/
def handleFits (h : Nat) : Bool := h < 256

/-- A command that some word encodes. -/
def wellFormed : Instr → Bool
  | .init => true
  | .update h => handleFits h
  | .final h => handleFits h
  | .free h => handleFits h

/-- `wellFormed` as a decidable proposition. -/
abbrev WellFormed (i : Instr) : Prop := wellFormed i = true

end Sys2Proof
end

