-- ==== Sys2Proof/Decode.lean ====
section
/-! DEFINITION. The command word: its fields, the decoder and the encoder (30_encoding.md R75–R83). -/

namespace Sys2Proof

/-- OP = `w[3:0]` (R75). -/
def opField (w : Word) : Nat := (w.extractLsb' 0 4).toNat

/-- RES_LO = `w[7:4]`, reserved, must be 0 (R75). -/
def resLoField (w : Word) : Nat := (w.extractLsb' 4 4).toNat

/-- HANDLE = `zext_8(w[15:8])` (R75, R77). -/
def handleField (w : Word) : Nat := (w.extractLsb' 8 8).toNat

/-- RES_HI = `w[31:16]`, reserved, must be 0 (R75). -/
def resHiField (w : Word) : Nat := (w.extractLsb' 16 16).toNat

/-- Why a word is ILLEGAL (R81). -/
inductive Illegal where
  /-- `w[31:16]` or `w[7:4]` is not 0. -/
  | reservedBits
  /-- OP is 0x0 or 0x5 to 0xF. -/
  | reservedOp
  deriving DecidableEq, Repr

/-- The outcomes of decoding: one of the four commands, or ILLEGAL with its reason (R82). -/
inductive Decoded where
  | instr (i : Instr)
  | illegal (why : Illegal)
  deriving DecidableEq, Repr

/-- The decoding procedure, total on every word, its checks in the spec's order (R82). -/
def decode (w : Word) : Decoded :=
  if resHiField w ≠ 0 ∨ resLoField w ≠ 0 then .illegal .reservedBits
  else
    match opField w with
    | 1 => .instr .init
    | 2 => .instr (.update (handleField w))
    | 3 => .instr (.final (handleField w))
    | 4 => .instr (.free (handleField w))
    | _ => .illegal .reservedOp

/-- `(h << 8) | op`, the command word with the reserved fields 0 (R85). -/
def commandWord (h : Nat) (op : Word) : Word := BitVec.ofNat 32 h <<< 8 ||| op

/-- The value of OP for a command (R76). -/
def opcodeOf : Instr → Word
  | .init => 1
  | .update _ => 2
  | .final _ => 3
  | .free _ => 4

/-- The handle a command carries; INIT is written with HANDLE = 0 (R85). -/
def handleOf : Instr → Nat
  | .init => 0
  | .update h => h
  | .final h => h
  | .free h => h

/-- The encoder: the word R85 writes to CMD for a command. -/
def encode (i : Instr) : Word := commandWord (handleOf i) (opcodeOf i)

/-- The mask of every row of the opcode map (R80). -/
def rowMask : Word := 0xFFFF00FF

/-- What this decoder reads from a table row's word `w` of `nbits` bits, bits above `nbits` being 0. A command is one 32-bit
quantity, written whole (R83). -/
def decodeTableWord (nbits w : Nat) : Option Instr :=
  match decode (BitVec.ofNat 32 (w % 2 ^ nbits)) with
  | .instr i => some i
  | .illegal _ => none

end Sys2Proof
end

