-- ==== Sys2Proof/Machine/Flags.lean ====
section
/-! DEFINITION. The two flags of the F32A, STATUS.BUSY and STATUS.OVR, and the STATUS word (10_state.md R29, R35). No command
writes a flag from its arithmetic (R35). -/

namespace Sys2Proof.Machine

/-- An accepted issue sets BUSY (R111). -/
def Status.issue (s : Status) : Status := { s with busy := true }

/-- Completion clears BUSY (R113). -/
def Status.finish (s : Status) : Status := { s with busy := false }

/-- A dropped CMD write sets OVR (R114). -/
def Status.overrun (s : Status) : Status := { s with ovr := true }

/-- The 32-bit STATUS word: BUSY in bit 0, OVR in bit 1, the reserved bits 0 (R29). -/
def Status.word (s : Status) : Word :=
  (if s.busy then 1 else 0) ||| (if s.ovr then 2 else 0)

end Sys2Proof.Machine
end

