-- ==== Sys2Proof/Machine/Operands.lean ====
section
/-! DEFINITION. The operands of a command: the handle and the context it names, and the buffer an UPDATE reads
(30_encoding.md R77, R78; 10_state.md R20, R23; 41_commands.md R121–R123). -/

namespace Sys2Proof.Machine

/-- NUM_CTX, the number of contexts (R10, R20). -/
def State.numCtx (s : State) : Nat := s.ctx.length

/-- `CTX[h]`, for a handle in `1 … NUM_CTX`; the null handle and greater values name no context (R23). -/
def State.ctxAt (s : State) (h : Nat) : Option Context := if h = 0 then none else s.ctx[h - 1]?

/-- The context a valid handle names: none when the handle is null, out of range or not live (R121). -/
def State.liveCtx (s : State) (h : Nat) : Option Context := (s.ctxAt h).filter (·.live)

/-- The lowest handle of a context that is not live (R118). -/
def State.firstFree (s : State) : Option Nat := (s.ctx.findIdx? (!·.live)).map (· + 1)

/-- The number of bytes of the buffer: L_LEN, unsigned (R78). -/
def State.bufferLen (s : State) : Nat := s.latch.len.toNat

/-- The address of byte `i` of the buffer, counted from 0 (R61). -/
def State.bufferAddr (s : State) (i : Nat) : Word := s.latch.addr + BitVec.ofNat 32 i

/-- The null-pointer check: `L_ADDR = 0` and `L_LEN ≠ 0` (R57, R122). -/
def State.nullPointer (s : State) : Bool := s.latch.addr == Config.nullAddr && s.latch.len != 0

/-- The wrap check: `L_ADDR + L_LEN > 2^32`, without truncation (R123). -/
def State.bufferWraps (s : State) : Bool :=
  Config.addressCount < s.latch.addr.toNat + s.latch.len.toNat

/-- Whether a data address lies in the buffer `[L_ADDR, L_ADDR + L_LEN)` (R67 clause 3). -/
def State.inBuffer (s : State) (a : Word) : Bool :=
  s.latch.addr.toNat ≤ a.toNat && a.toNat < s.latch.addr.toNat + s.latch.len.toNat

end Sys2Proof.Machine
end

