-- ==== Sys2Proof/Machine/Ops.lean ====
section
/-! DEFINITION. The named operations on the machine: data memory and MemRead (20_memory.md), the context file, and the two
ways a command ends, `complete` and `raiseError` (00_scope.md R12; 41_commands.md R113; 60_exceptions.md R165, R168). -/

namespace Sys2Proof.Machine

/-- What a data byte that is not listed reads as: 0x00. The spec gives memory no contents of its own (R58; DESIGN
CHOICE, unsafe, log 8). -/
def Memory.unlisted : Byte := 0

/-- The byte stored at an address. -/
def Memory.read : Memory → Nat → Byte
  | [], _ => Memory.unlisted
  | c :: m, a => if c.1 = a then c.2 else Memory.read m a

/-- Put a byte at the head of a memory unless an unlisted address reads the same. -/
def Memory.put (a : Nat) (v : Byte) (m : Memory) : Memory :=
  if v = Memory.unlisted then m else (a, v) :: m

/-- Store a byte, keeping the list in its canonical form. -/
def Memory.write : Memory → Nat → Byte → Memory
  | [], a, v => Memory.put a v []
  | c :: m, a, v =>
    if a < c.1 then Memory.put a v (c :: m)
    else if a = c.1 then Memory.put a v m
    else c :: Memory.write m a v

/-- The canonical form, for a memory whose addresses start at `lo`: strictly rising, inside the address space, and no entry
that an unlisted address reads as. -/
def Memory.wfFrom : Nat → Memory → Bool
  | _, [] => true
  | lo, c :: m =>
    decide (lo ≤ c.1) && decide (c.1 < Config.addressCount) && decide (c.2 ≠ Memory.unlisted) &&
      Memory.wfFrom (c.1 + 1) m

/-- The canonical form of data memory. -/
def Memory.wf (m : Memory) : Bool := Memory.wfFrom 0 m

/-- Whether an address lies in a region. -/
def Region.contains (r : Region) (a : Word) : Bool := r.base ≤ a.toNat && a.toNat < r.base + r.size

/-- The predicate Readable (R10, R60). -/
def State.readable (s : State) (a : Word) : Bool := s.params.readable.any (·.contains a)

/-- Whether the byte read at an address is a draw: written since the issue (R67 clause 3), or in a region whose reads have
side effects (R194). -/
def State.isDraw (s : State) (a : Word) : Bool :=
  s.raced.contains a || s.params.sideEffects.any (·.contains a)

/-- The byte a readable address gives: the stored byte, or the free value of a draw (R60, R67 clause 3, R194; logs 7
and 9). -/
def State.byteAt (s : State) (a : Word) : Byte :=
  if s.isDraw a then Config.drawnByte s.draws a else Memory.read s.mem a.toNat

/-- The bytes `d_1 … d_n` of the buffer, in increasing address order (R13, R61). -/
def State.bufferBytes (s : State) : List Byte := (List.range s.bufferLen).map fun i => s.byteAt (s.bufferAddr i)

/-- What MemRead returns: a byte or BusError (R12). -/
inductive ReadResult where
  | byte (b : Byte)
  | busError
  deriving DecidableEq, Repr

/-- `MemRead(a, 1)` (R60): BusError where Readable is false, the byte otherwise. It changes no state. -/
def State.memRead (s : State) (a : Word) : ReadResult :=
  if s.readable a then .byte (s.byteAt a) else .busError

/-- Change the context a handle names; no other context is touched (R22). -/
def State.modifyCtx (s : State) (h : Nat) (f : Context → Context) : State :=
  if h = 0 then s else { s with ctx := s.ctx.modify (h - 1) f }

/-- `REG.RESULT <- v` (R31). -/
def State.setResult (s : State) (v : Word) : State := { s with result := v }

/-- The status codes (R165). -/
inductive Code where
  | ok | invalidArgument | allocationFailure | illegalCommand | busError
  deriving DecidableEq, Repr

/-- The 32-bit two's-complement value of a status code (R165). -/
def Code.word : Code → Word
  | .ok => 0x00000000
  | .invalidArgument => 0xFFFFFFFF
  | .allocationFailure => 0xFFFFFFFE
  | .illegalCommand => 0xFFFFFFFD
  | .busError => 0xFFFFFFFC

/-- What the latches hold between commands: unspecified (R36, 93 I4; DEDUCED, safe, log 16). -/
def idleLatch (n : Nat) : Latch where
  w := Config.idleWord n .lW
  addr := Config.idleWord n .lAddr
  len := Config.idleWord n .lLen

/-- What the working registers hold between commands: unspecified, RUN within 0 to N (R37, 93 I4; DEDUCED, safe,
log 16). -/
def idlePipe (n : Nat) : Pipe where
  w1 := Config.idleWord n .w1
  w2 := Config.idleWord n .w2
  ptr := Config.idleWord n .ptr
  rem := Config.idleWord n .rem
  run := BitVec.ofNat 13 (Config.idleRun n % (Config.batchBound + 1))

/-- The end of a command (R113): CODE is written, then BUSY returns to 0, and the internal state of the command is given up
(R36, R37). The free values of the next command are fresh (log 13). -/
def State.endCommand (s : State) (c : Code) : State :=
  { s with
    code := c.word
    status := s.status.finish
    latch := idleLatch s.draws
    pipe := idlePipe s.draws
    delay := 0
    raced := []
    draws := s.draws + 1 }

/-- `complete(OK)`: the command ends successfully (R12). -/
def State.complete (s : State) : State := s.endCommand .ok

/-- `raise Error(code)`: the one error operation (R12, R168). It writes CODE and ends the command; the F32A has no trap, so
nothing is saved and control goes nowhere (R174, R175). INIT also writes RESULT, in `execInit`. -/
def State.raiseError (s : State) (c : Code) : State := s.endCommand c

/-- The outcome of a meaning. -/
abbrev Result := Host.Outcome State Fault Refusal

/-- The command in flight, decoded from the latched word (R113, R82). -/
def State.fetch (s : State) : Decoded := decode s.latch.w

end Sys2Proof.Machine
end

