-- ==== Sys2Proof/Machine/Final.lean ====
section
/-! DEFINITION. FINAL: read the checksum (41_commands.md R129–R131). -/

namespace Sys2Proof.Machine

/-- FINAL (R129): the checksum of a live context into RESULT, no context changed (R130); otherwise INVALID_ARGUMENT with
RESULT kept (R131). -/
def execFinal (h : Nat) (s : State) : Result :=
  match s.liveCtx h with
  | none => .next (s.raiseError .invalidArgument)
  | some c => .next ((s.setResult (ck c.sum1 c.sum2)).complete)

end Sys2Proof.Machine
end

