-- ==== Sys2Proof/Machine/Free.lean ====
section
/-! DEFINITION. FREE: release an accumulator (41_commands.md R132, R133). -/

namespace Sys2Proof.Machine

/-- FREE (R132): a live context becomes not live, its sums left as they are; any other handle is a no-op. CODE is OK in every
case. -/
def execFree (h : Nat) (s : State) : Result :=
  match s.liveCtx h with
  | none => .next s.complete
  | some _ => .next ((s.modifyCtx h fun c => { c with live := false }).complete)

end Sys2Proof.Machine
end

