-- ==== Sys2Proof/Machine/Init.lean ====
section
/-! DEFINITION. INIT: create an accumulator (41_commands.md R118–R120). -/

namespace Sys2Proof.Machine

/-- A context right after INIT: both sums the seed, live (R120). -/
def seededContext : Context := { sum1 := Config.seed, sum2 := Config.seed, live := true }

/-- INIT (R120): the lowest-numbered context that is not live is seeded and its handle returned; when every context is live,
ALLOCATION_FAILURE with RESULT = 0 (R119). -/
def execInit (s : State) : Result :=
  match s.firstFree with
  | none => .next ((s.setResult 0).raiseError .allocationFailure)
  | some h => .next (((s.modifyCtx h fun _ => seededContext).setResult (BitVec.ofNat 32 h)).complete)

end Sys2Proof.Machine
end

