-- ==== Sys2Proof/Machine/Pipeline.lean ====
section
/-! DEFINITION. The batched reduction pipeline: its micro-steps, the permitted schedules, and the other forms an
implementation may give a step (42_batched_pipeline.md R140–R158). -/

namespace Sys2Proof.Machine

/-- ACC on the working registers, for a byte that was read (R142): the byte into W1, the new W1 into W2. -/
def Pipe.acc (p : Pipe) (b : Byte) : Pipe where
  w1 := p.w1 + b.setWidth 32
  w2 := p.w2 + (p.w1 + b.setWidth 32)
  ptr := p.ptr + 1
  rem := p.rem - 1
  run := p.run + 1

/-- RED on the working registers (R143). -/
def Pipe.red (p : Pipe) : Pipe :=
  { p with w1 := BitVec.ofNat 32 (Machine.red p.w1.toNat), w2 := BitVec.ofNat 32 (Machine.red p.w2.toNat), run := 0 }

/-- ACC once for each byte of a list (R142). -/
def Pipe.accs (p : Pipe) : List Byte → Pipe
  | [] => p
  | b :: bs => (p.acc b).accs bs

/-- One beat on the working registers, for bytes that were read (R153). -/
def Pipe.beat (p : Pipe) (bs : List Byte) : Pipe where
  w1 := p.w1 + BitVec.ofNat 32 (byteSum bs)
  w2 := p.w2 + BitVec.ofNat 32 bs.length * p.w1 + BitVec.ofNat 32 (weightedSum bs)
  ptr := p.ptr + BitVec.ofNat 32 bs.length
  rem := p.rem - BitVec.ofNat 32 bs.length
  run := p.run + BitVec.ofNat 13 bs.length

/-- The working registers as LOAD sets them, from a context and the latches (R141). -/
def Pipe.loaded (c : Context) (l : Latch) : Pipe where
  w1 := c.sum1.setWidth 32
  w2 := c.sum2.setWidth 32
  ptr := l.addr
  rem := l.len
  run := 0

/-- LOAD (R141); the context is not written. -/
def State.load (s : State) (c : Context) : State := { s with pipe := Pipe.loaded c s.latch }

/-- ACC: fold the byte at PTR without reduction, or no state when MemRead returns BusError (R142, R157). -/
def State.acc (s : State) : Option State :=
  match s.memRead s.pipe.ptr with
  | .busError => none
  | .byte b => some { s with pipe := s.pipe.acc b }

/-- The `k` bytes from address `a`, read in increasing address order, or none when one of them is unreadable (R153). -/
def State.readRun (s : State) : Nat → Word → Option (List Byte)
  | 0, _ => some []
  | k + 1, a =>
    match s.memRead a with
    | .busError => none
    | .byte b => (s.readRun k (a + 1)).map (b :: ·)

/-- A beat: read the next `k` bytes and fold them at once, or no state when a read returns BusError (R153, R157). -/
def State.beat (s : State) (k : Nat) : Option State :=
  (s.readRun k s.pipe.ptr).map fun bs => { s with pipe := s.pipe.beat bs }

/-- RED (R143). -/
def State.red (s : State) : State := { s with pipe := s.pipe.red }

/-- COMMIT (R144): the low 16 bits of W1 and W2 into the sums of context `h`, and the command completes with OK. -/
def State.commit (s : State) (h : Nat) : State :=
  (s.modifyCtx h fun c => { c with sum1 := s.pipe.w1.setWidth 16, sum2 := s.pipe.w2.setWidth 16 }).complete

/-- RUN and REM after one step of a schedule, or none when it is not enabled: ACC needs `REM > 0` and `RUN < N` (R142), RED
needs `RUN ≥ 1` (R143), and a beat of `k ≥ 1` bytes needs `REM ≥ k` and `RUN + k ≤ N` (R153). -/
def Micro.counts (m : Micro) (run rem : Nat) : Option (Nat × Nat) :=
  match m with
  | .acc => if 0 < rem ∧ run < Config.batchBound then some (run + 1, rem - 1) else none
  | .red => if 1 ≤ run then some (0, rem) else none
  | .beat k => if 1 ≤ k ∧ k ≤ rem ∧ run + k ≤ Config.batchBound then some (run + k, rem - k) else none

/-- How many bytes a step folds. -/
def Micro.width : Micro → Nat
  | .acc => 1
  | .red => 0
  | .beat k => k

/-- The reference schedule for `n` more bytes when `run` bytes were folded since the last reduction (R152): RED only at
`RUN = N` and after the last byte. -/
def referencePlan : Nat → Nat → List Micro
  | 0, run => if run = 0 then [] else [.red]
  | n + 1, run =>
    if run = Config.batchBound then .red :: .acc :: referencePlan n 1 else .acc :: referencePlan n (run + 1)

/-- The schedule for `n` more bytes, by the pipeline's preferred steps (R145, R153; log 10): each is taken where it is
enabled and passed over where it is not; when none is left the reference schedule finishes. -/
def plan : Nat → List Micro → Nat → List Micro
  | n, [], run => referencePlan n run
  | n, m :: ms, run =>
    match m.counts run n with
    | none => plan n ms run
    | some c => m :: plan c.2 ms c.1

/-- RUN and REM after a list of steps, or none when one of them was not enabled. -/
def countsAfter : List Micro → Nat → Nat → Option (Nat × Nat)
  | [], run, rem => some (run, rem)
  | m :: ms, run, rem =>
    match m.counts run rem with
    | none => none
    | some c => countsAfter ms c.1 c.2

/-- A permitted schedule for a buffer of `n` bytes: every step is enabled in its turn, and COMMIT is enabled after the last
one, `REM = 0` and `RUN = 0` (R144, R145, R153). -/
def permitted (n : Nat) (ms : List Micro) : Bool := countsAfter ms 0 n == some (0, 0)

/-- Carry out one step; no state when a read fails (R157). -/
def Micro.run (m : Micro) (s : State) : Option State :=
  match m with
  | .acc => s.acc
  | .red => some s.red
  | .beat k => s.beat k

/-- Carry out steps in order; no state when a read fails (R157). -/
def runMicros : List Micro → State → Option State
  | [], s => some s
  | m :: ms, s =>
    match m.run s with
    | none => none
    | some t => runMicros ms t

/-- RED with the conditional subtractor on W1, which R154 permits when `RUN ≤ 256`; it is the RED of the source's path for
short buffers (R151). -/
def Pipe.redShort (p : Pipe) : Pipe :=
  { p with w1 := BitVec.ofNat 32 (csub p.w1.toNat), w2 := BitVec.ofNat 32 (Machine.red p.w2.toNat), run := 0 }

/-- The source's path for one byte: `W1 <- csub(W1 + b)`, then `W2 <- csub(W2 + W1)` (R150). -/
def Pipe.oneByte (p : Pipe) (b : Byte) : Pipe :=
  let w1 := BitVec.ofNat 32 (csub (p.w1.toNat + b.toNat))
  { p with
    w1 := w1
    w2 := BitVec.ofNat 32 (csub (p.w2.toNat + w1.toNat))
    ptr := p.ptr + 1
    rem := p.rem - 1 }

end Sys2Proof.Machine
end

