-- ==== Sys2Proof/Machine/Update.lean ====
section
/-! DEFINITION. UPDATE: fold a buffer into a context (41_commands.md R121–R128), by the batched pipeline of
42_batched_pipeline.md. -/

namespace Sys2Proof.Machine

/-- UPDATE (R125): the checks in their order (R121, R122, R123), the empty buffer (R124, R158), then LOAD, the schedule and
COMMIT; an unreadable byte ends it with BUS_ERROR and nothing committed (R126, R157). All of its bytes are read in this one
step, the last of the command, so that every write of the host since the issue is known (R18, R67;
DEDUCED, safe, log 7). -/
def execUpdate (h : Nat) (s : State) : Result :=
  match s.liveCtx h with
  | none => .next (s.raiseError .invalidArgument)
  | some c =>
    if s.nullPointer then .next (s.raiseError .invalidArgument)
    else if s.bufferWraps then .next (s.raiseError .invalidArgument)
    else if s.bufferLen = 0 then .next s.complete
    else
      match runMicros (plan s.bufferLen s.params.schedule 0) (s.load c) with
      | none => .next (s.raiseError .busError)
      | some t => .next (t.commit h)

end Sys2Proof.Machine
end

