-- ==== Sys2Proof/Machine/Dispatch.lean ====
section
/-! DEFINITION. `execute` of the four commands (41_commands.md R115). -/

namespace Sys2Proof.Machine

/-- `execute(i)`: one arm per command (R115). -/
def exec (i : Instr) (s : State) : Host.Outcome State Fault Refusal :=
  match i with
  | .init => Sys2Proof.Machine.execInit s
  | .update h => Sys2Proof.Machine.execUpdate h s
  | .final h => Sys2Proof.Machine.execFinal h s
  | .free h => Sys2Proof.Machine.execFree h s

end Sys2Proof.Machine
end

