-- ==== Sys2Proof/Machine/Illegal.lean ====
section
/-! DEFINITION. ILLEGAL: an issued word outside the opcode map (41_commands.md R134). -/

namespace Sys2Proof.Machine

/-- ILLEGAL (R134, R169): CODE = ILLEGAL_COMMAND and nothing else. -/
def execIllegal (s : State) : Result := .next (s.raiseError .illegalCommand)

end Sys2Proof.Machine
end

