-- ==== Sys2Proof/Machine/Engine.lean ====
section
/-! DEFINITION. The command engine: the issue of a command (41_commands.md R111, R112) and its completing move
(R113). -/

namespace Sys2Proof.Machine

/-- An accepted issue (R111, R112): BUSY is set, and the word, ADDR and LEN are latched at one instant. How long the command
stays in flight is a free value (R200; log 1), and no read of STATUS has yet followed this issue (R198). -/
def State.issue (s : State) (w : Word) : State :=
  { s with
    status := s.status.issue
    latch := { w := w, addr := s.addr, len := s.len }
    raced := []
    delay := Config.busyDelay s.draws
    idleSeen := false }

/-- The state just after the issue of the word `w`, with the engine to move next. -/
def State.placeWord (s : State) (w : Word) : State := { s.issue w with delay := 0 }

/-- The engine's move: the command in flight is executed and completes (R113, R115). -/
def engineMove (s : State) : Result :=
  match s.fetch with
  | .instr i => exec i s
  | .illegal _ => execIllegal s

/-- Whether the engine moves next: a command is in flight, and the host has no statement that is still to be served before it
completes (R117, R200; DESIGN CHOICE, safe, log 1). -/
def State.engineTurn (s : State) : Bool := s.status.busy && (s.delay == 0 || s.host.isEmpty)

end Sys2Proof.Machine
end

