-- ==== Sys2Proof/Machine/HostPort.lean ====
section
/-! DEFINITION. The host's side: the register window (10_state.md R25–R32; 20_memory.md R54–R56, R66), stores to and loads from data memory
(R67), reset (70_reset_and_hazards.md R185, R186), and one statement of the host. -/

namespace Sys2Proof.Machine

/-- The number of bytes of an access. -/
def Size.bytes : Size → Nat
  | .byte => 1
  | .half => 2
  | .word => 4
  | .double => 8

/-- The size of the register window in bytes (R55). -/
def windowBytes : Nat := 32

/-- The offset of a register in the window (R25). -/
def HostReg.offset : HostReg → Nat
  | .cmd => 0x00
  | .addr => 0x04
  | .len => 0x08
  | .status => 0x0C
  | .code => 0x10
  | .result => 0x14
  | .config => 0x18
  | .reserved => 0x1C

/-- The register at a 4-byte-aligned offset of the window (R25). -/
def regAtOffset (offset : Nat) : HostReg :=
  if offset = 0x00 then .cmd
  else if offset = 0x04 then .addr
  else if offset = 0x08 then .len
  else if offset = 0x0C then .status
  else if offset = 0x10 then .code
  else if offset = 0x14 then .result
  else if offset = 0x18 then .config
  else .reserved

/-- How a host access meets the window. -/
inductive Access where
  /-- It touches no byte of the window, so it is no access to the F32A. -/
  | outside
  /-- It touches the window and is not a 32-bit access at a 4-byte-aligned offset (R56). -/
  | bad
  /-- It is a 32-bit access to one register. -/
  | reg (r : HostReg)
  deriving DecidableEq, Repr

/-- Decode a host access against the window at `base` (R55, R56; an access outside it: DESIGN CHOICE,
safe, log 12). -/
def decodeAccess (base addr : Nat) (size : Size) : Access :=
  if addr < base + windowBytes ∧ base < addr + size.bytes then
    if size = .word ∧ base ≤ addr ∧ (addr - base) % 4 = 0 then .reg (regAtOffset (addr - base)) else .bad
  else .outside

/-- A host write of `v` to a register (R66): CMD is an issue attempt (R111), dropped with OVR while busy (R114); ADDR and LEN
take the value (R27, R28); read-only and reserved registers ignore it (R25). -/
def State.writeReg (s : State) (r : HostReg) (v : Word) : State :=
  match r with
  | .cmd => if s.status.busy then { s with status := s.status.overrun } else s.issue v
  | .addr => { s with addr := v }
  | .len => { s with len := v }
  | .status => s
  | .code => s
  | .result => s
  | .config => s
  | .reserved => s

/-- The value of a register as the host reads it (R25–R32). -/
def State.readReg (s : State) (r : HostReg) : Word :=
  match r with
  | .cmd => 0
  | .addr => s.addr
  | .len => s.len
  | .status => s.status.word
  | .code => s.code
  | .result => s.result
  | .config => BitVec.ofNat 32 s.numCtx
  | .reserved => 0

/-- Whether a read of this register now shows the host that no command is in flight: STATUS with BUSY = 0 (R84, R198). -/
def State.showsIdle (s : State) (r : HostReg) : Bool := r == .status && !s.status.busy

/-- The host has read a register: it gets the value, and the F32A is unchanged (R66). -/
def State.recordRead (s : State) (r : HostReg) : State :=
  { s with hostReads := .reg r (s.readReg r) :: s.hostReads, idleSeen := s.idleSeen || s.showsIdle r }

/-- The byte of data memory a load of the host gives: the stored byte, the host's own stores during a command included; in a
region whose reads have side effects a free value (R8, R194; DEDUCED, safe, log 22). -/
def State.loadByte (s : State) (a : Word) : Byte :=
  if s.params.sideEffects.any (·.contains a) then Config.drawnByte s.draws a else Memory.read s.mem a.toNat

/-- The host has loaded a byte of data memory (R8): it gets the byte, and the F32A and memory are unchanged. The next free
value is fresh (log 13). -/
def State.recordLoad (s : State) (a : Word) : State :=
  { s with hostReads := .data a (s.loadByte a) :: s.hostReads, draws := s.draws + 1 }

/-- The host stores a byte to data memory (R84). While a command is in flight the address is remembered, because an UPDATE
folds a draw there (R67 clause 3). -/
def State.hostStore (s : State) (a : Word) (v : Byte) : State :=
  { s with
    mem := Memory.write s.mem a.toNat v
    raced := if s.status.busy then a :: s.raced else s.raced }

/-- Reset of the F32A (R185, R186): every field of the F32A takes its reset value and a command in flight is abandoned. Data
memory, the parameters and the host are not part of the F32A and stay (DEDUCED, log 18). -/
def State.resetDevice (s : State) : State :=
  { State.resetWith s.numCtx s.params with
    mem := s.mem
    host := s.host
    hostReads := s.hostReads
    idleSeen := s.idleSeen
    draws := s.draws + 1 }

/-- One turn of WAIT (R84): STATUS is read, and the statement stays at the head of the list while that read gives
BUSY = 1. -/
def State.pollStatus (s : State) : State :=
  { s.recordRead .status with host := if s.status.busy then .wait :: s.host else s.host }

/-- One statement of the host, already taken from its list (R84). -/
def hostMove (st : HostStmt) (s : State) : Result :=
  match st with
  | .write a size v =>
    match decodeAccess s.params.regBase a size with
    | .outside => .next s
    | .bad => .refused .windowAccess
    | .reg r => .next (s.writeReg r v)
  | .read a size =>
    match decodeAccess s.params.regBase a size with
    | .outside => .next s
    | .bad => .refused .windowAccess
    | .reg r => .next (s.recordRead r)
  | .wait => .next s.pollStatus
  | .store a v => .next (s.hostStore a v)
  | .load a => .next (s.recordLoad a)
  | .reset => .next s.resetDevice

/-- The host takes its next statement; one more statement has been served beside the command in flight. -/
def State.takeStmt (s : State) (rest : List HostStmt) : State := { s with host := rest, delay := s.delay - 1 }

/-- The host's move. With no statement left the machine is idle and keeps all its state (R183). -/
def hostTurn (s : State) : Result :=
  match s.host with
  | [] => .next s
  | st :: rest => hostMove st (s.takeStmt rest)

end Sys2Proof.Machine
end

