-- ==== Sys2Proof/Machine/HostProgram.lean ====
section
/-! DEFINITION. The host assembly of 30_encoding.md: the statements WR, RD, WAIT and MEM (R84) and the pseudo-instructions
(R85), as the statements of `State.host`. -/

namespace Sys2Proof.Machine

/-- `WR <reg>, <value>` (R84). -/
def wr (base : Nat) (r : HostReg) (v : Word) : HostStmt := .write (base + r.offset) .word v

/-- `RD <reg>` (R84). -/
def rd (base : Nat) (r : HostReg) : HostStmt := .read (base + r.offset) .word

/-- `MEM <addr>: <bytes>` (R84), one store a byte in increasing address order. -/
def placeBytes (a : Word) : List Byte → List HostStmt
  | [] => []
  | b :: bs => .store a b :: placeBytes (a + 1) bs

/-- `INIT -> h` (R85). -/
def pseudoInit (base : Nat) : List HostStmt :=
  [wr base .cmd (encode .init), .wait, rd base .code, rd base .result]

/-- `UPDATE h, a, n` (R85). -/
def pseudoUpdate (base h : Nat) (a n : Word) : List HostStmt :=
  [wr base .addr a, wr base .len n, wr base .cmd (encode (.update h)), .wait, rd base .code]

/-- `FINAL h -> k` (R85). -/
def pseudoFinal (base h : Nat) : List HostStmt :=
  [wr base .cmd (encode (.final h)), .wait, rd base .code, rd base .result]

/-- `FREE h` (R85). -/
def pseudoFree (base h : Nat) : List HostStmt := [wr base .cmd (encode (.free h)), .wait]

/-- A host with these statements appended to its list. -/
def State.thenHost (s : State) (p : List HostStmt) : State := { s with host := s.host ++ p }

/-- The end of a host program (R198): the host has executed its last statement, and a read of STATUS has returned BUSY = 0
after the last accepted issue. -/
def State.programEnded (s : State) : Bool := s.host.isEmpty && s.idleSeen

end Sys2Proof.Machine
end

