-- ==== Sys2Proof/Machine/Step.lean ====
section
/-! DEFINITION. One step of the machine: a move of the command engine or of the host (00_scope.md R8). -/

namespace Sys2Proof.Machine

/-- One step. Commands are serial and atomic at completion (R18, R113, R116); the host's statements fall between moves of the
engine (log 1). -/
def step (s : State) : Host.Outcome State Fault Refusal :=
  if s.engineTurn then engineMove s else hostTurn s

/-- `s` with the word `w` of `nbits` bits just issued, so that the next step runs it (DESIGN CHOICE, log 2). -/
def State.withFetchWord (s : State) (nbits w : Nat) : State := s.placeWord (BitVec.ofNat 32 (w % 2 ^ nbits))

end Sys2Proof.Machine
end

