-- ==== Sys2Proof/Safety.lean ====
section
/-! DEFINITION. What a run must keep to for the spec's promises to hold, and the invariant of the machine
(70_reset_and_hazards.md R190–R194, R197; 10_state.md R21). None of the host's duties is assumed by the machine: breaking one
has the defined effect of the rules. -/

namespace Sys2Proof.Machine

/-- No command was lost: STATUS.OVR = 0, the premise of every claim about a host program (R114, R190). -/
def Safe (s : State) : Bool := !s.status.ovr

/-- The handle names a live context. With one host, the handles it got from INIT and has not released with FREE are the
handles of the live contexts (R193; DEDUCED, log 14). -/
def ownsHandle (s : State) (h : Nat) : Bool := (s.liveCtx h).isSome

/-- Every byte of the buffer is readable (R197). -/
def bufferReadable (s : State) : Bool := (List.range s.bufferLen).all fun i => s.readable (s.bufferAddr i)

/-- No byte of the buffer was written since the issue (R194). -/
def bufferStill (s : State) : Bool := s.raced.all fun a => !s.inBuffer a

/-- No byte of the buffer lies in a region whose reads have side effects (R194). -/
def bufferQuiet (s : State) : Bool :=
  (List.range s.bufferLen).all fun i => !s.params.sideEffects.any (·.contains (s.bufferAddr i))

/-- The results of the last command may be read and used: it has completed with OK (R191, R192). -/
def resultUsable (s : State) : Bool := !s.status.busy && s.code == Code.ok.word

/-- The sums of a live context are the seed pair or both canonical (R21). -/
def Context.sumsLegal (c : Context) : Bool :=
  !c.live || (c.sum1 == Config.seed && c.sum2 == Config.seed) ||
    (canonical c.sum1.toNat && canonical c.sum2.toNat)

/-- CODE holds one of the five status codes (R30, R165). -/
def codeLegal (w : Word) : Bool :=
  w == Code.ok.word || w == Code.invalidArgument.word || w == Code.allocationFailure.word ||
    w == Code.illegalCommand.word || w == Code.busError.word

/-- The invariant of the machine: the number of contexts and the window's place are those of an F32A (R10, R55), the sums of
every live context have a form R21 allows, CODE is a status code (R30), RUN is at most N (R37), nothing is pending between
commands, data memory is in its canonical form, and the host has not seen the machine idle while a command is in flight
(R198). -/
def MachineInv (s : State) : Bool :=
  decide (1 ≤ s.numCtx) && decide (s.numCtx ≤ 255) && s.params.regBase % 32 == 0 &&
    s.ctx.all (·.sumsLegal) && codeLegal s.code && decide (s.pipe.run.toNat ≤ Config.batchBound) &&
    (s.status.busy || (s.raced.isEmpty && s.delay == 0)) && Memory.wf s.mem && !(s.idleSeen && s.status.busy)

end Sys2Proof.Machine
end

