-- ==== Sys2Proof/Certificates/Slice0/Obligations.lean ====
section
/-! DEFINITION. The statements for the provers, each from the numbered rules of spec/ its docstring cites. OBLIGATIONS.json
lists them. -/

open Sys2Proof Sys2Proof.Machine

namespace Sys2Proof.Claims

/-- What no command changes: ADDR, LEN, OVR, data memory byte for byte and as a whole, the parameters, and the host's side
(R12, R52, R168). The latches and working registers are unspecified after a command (R36, R37), so nothing is said of
them. -/
def KeepsRest (s t : State) : Prop :=
  t.addr = s.addr ∧ t.len = s.len ∧ t.status.ovr = s.status.ovr ∧ t.mem = s.mem ∧
    (∀ a, Memory.read t.mem a = Memory.read s.mem a) ∧ t.params = s.params ∧ t.host = s.host ∧ t.hostReads = s.hostReads ∧
    t.idleSeen = s.idleSeen

/-- The command has completed with the code `v`: CODE holds it and BUSY is 0 (R113). -/
def CompletedWith (t : State) (v : Word) : Prop := t.code = v ∧ t.status.busy = false

/-- `h` is the handle of a live context `c`: in `1 … NUM_CTX`, and live (R23, R121). -/
def LiveHandle (s : State) (h : Nat) (c : Context) : Prop := 1 ≤ h ∧ s.ctx[h - 1]? = some c ∧ c.live = true

/-- `h` is null, out of range, or names a context that is not live (R121). -/
def BadHandle (s : State) (h : Nat) : Prop :=
  h = 0 ∨ s.numCtx < h ∨ ∃ c, s.ctx[h - 1]? = some c ∧ c.live = false

/-- The latched buffer passes the null-pointer check and the wrap check (R122, R123). -/
def BufferInSpace (s : State) : Prop :=
  ¬(s.latch.addr = 0 ∧ s.latch.len ≠ 0) ∧ s.latch.addr.toNat + s.latch.len.toNat ≤ 2 ^ 32

/-- Every byte of the latched buffer is readable (R60). -/
def AllReadable (s : State) : Prop := ∀ i, i < s.latch.len.toNat → s.readable (s.latch.addr + BitVec.ofNat 32 i) = true

/-- The context a command names: for INIT the one it allocates (R22, R118). -/
def namedBy (i : Instr) (s : State) : Option Nat :=
  match i with
  | .init => s.firstFree
  | .update h => some h
  | .final h => some h
  | .free h => some h

/-- The machine with other latched operands: the issue of a command with this buffer (R112). -/
def withBuffer (s : State) (a n : Word) : State := { s with latch := { s.latch with addr := a, len := n } }

/-- How many bytes a schedule folds. -/
def bytesFolded (ms : List Micro) : Nat := (ms.map Micro.width).sum

/-- No byte of any buffer is a draw: nothing was stored since the issue, and no region has side effects (R67, R194). -/
def NoDraws (s : State) : Prop := s.raced = [] ∧ s.params.sideEffects = []

/-- The checksum of a byte sequence folded from a pair of sums (R100, R107). -/
def checksum (s : Nat × Nat) (d : List Byte) : Word :=
  ck (BitVec.ofNat 16 (fold s d).1) (BitVec.ofNat 16 (fold s d).2)

/-- The sums of a context with other values. -/
def withSums (a b : Half) (c : Context) : Context := { c with sum1 := a, sum2 := b }

end Sys2Proof.Claims

open Sys2Proof.Claims

/-! ### Encoding -/

/-- R86: the spec's example words, decoded; and the words the spec gives for INIT, UPDATE, FINAL and FREE, encoded. -/
def Obligations.ExampleWordsDecode : Prop :=
  decode 0x00000001 = .instr .init ∧ decode 0x00000102 = .instr (.update 1) ∧ decode 0x00000103 = .instr (.final 1) ∧
  decode 0x00000104 = .instr (.free 1) ∧ decode 0x0000FF02 = .instr (.update 255) ∧
  decode 0x00000003 = .instr (.final 0) ∧ decode 0x00000000 = .illegal .reservedOp ∧
  decode 0x00000012 = .illegal .reservedBits ∧ decode 0x00010002 = .illegal .reservedBits ∧
  decode 0x00000105 = .illegal .reservedOp ∧ decode 0x0000AB01 = .instr .init ∧
  encode .init = 0x00000001 ∧ encode (.update 1) = 0x00000102 ∧ encode (.final 1) = 0x00000103 ∧
  encode (.free 1) = 0x00000104 ∧ encode (.update 255) = 0x0000FF02 ∧ encode (.final 0) = 0x00000003

/-- R75, R82, R85: the word written for a command is decoded to that command, for every handle the field admits. -/
def Obligations.DecodeOfEncode : Prop := ∀ i : Instr, WellFormed i → decode (encode i) = .instr i

/-- R80: the opcode map. A word selects a command exactly when it agrees with the row's match under the mask 0xFFFF00FF, the
handle is bits 15:8, and every other word is illegal. -/
def Obligations.OpcodeMap : Prop :=
  ∀ w : Word,
    (decode w = .instr .init ↔ w &&& 0xFFFF00FF = 0x00000001) ∧
    (∀ h, decode w = .instr (.update h) ↔ w &&& 0xFFFF00FF = 0x00000002 ∧ h = (w.extractLsb' 8 8).toNat) ∧
    (∀ h, decode w = .instr (.final h) ↔ w &&& 0xFFFF00FF = 0x00000003 ∧ h = (w.extractLsb' 8 8).toNat) ∧
    (∀ h, decode w = .instr (.free h) ↔ w &&& 0xFFFF00FF = 0x00000004 ∧ h = (w.extractLsb' 8 8).toNat) ∧
    ((∃ why, decode w = .illegal why) ↔
      w.extractLsb' 16 16 ≠ 0 ∨ w.extractLsb' 4 4 ≠ 0 ∨ w.extractLsb' 0 4 = 0 ∨ 5 ≤ (w.extractLsb' 0 4).toNat)

/-- R75, R77, R80: a decoded command is well formed, and every word but INIT's (whose HANDLE is ignored) is the one word of
its command. -/
def Obligations.EncodeOfDecode : Prop :=
  ∀ (w : Word) (i : Instr), decode w = .instr i → WellFormed i ∧ (i ≠ .init → encode i = w)

/-- R85: the register accesses of the four pseudo-instructions. -/
def Obligations.PseudoInstructionExpansions : Prop :=
  ∀ (base h : Nat) (a n : Word), h < 256 →
    pseudoInit base = [.write base .word 0x00000001, .wait, .read (base + 0x10) .word, .read (base + 0x14) .word] ∧
    pseudoUpdate base h a n =
      [.write (base + 0x04) .word a, .write (base + 0x08) .word n, .write base .word (BitVec.ofNat 32 (h * 256 + 2)),
        .wait, .read (base + 0x10) .word] ∧
    pseudoFinal base h =
      [.write base .word (BitVec.ofNat 32 (h * 256 + 3)), .wait, .read (base + 0x10) .word, .read (base + 0x14) .word] ∧
    pseudoFree base h = [.write base .word (BitVec.ofNat 32 (h * 256 + 4)), .wait]

/-! ### Arithmetic -/

/-- R95: on its domain the conditional subtractor is the reduction, and the result is canonical; one above the domain it is
not. -/
def Obligations.ConditionalSubtractorReduces : Prop :=
  (∀ x : Nat, x ≤ 0x1FFFD → csub x = red x ∧ csub x ≤ 0xFFFE) ∧ csub 0x1FFFE = 0xFFFF ∧ red 0x1FFFE = 0

/-- R96: the modular adder. -/
def Obligations.ModularAdder : Prop :=
  ∀ a b : Nat, a ≤ 0xFFFF → b ≤ 0xFFFE → addmod a b = (a + b) % 0xFFFF ∧ addmod a b ≤ 0xFFFE

/-- R98: the per-byte step in closed form; its components are canonical, also from the seed. -/
def Obligations.ByteStepClosedForm : Prop :=
  ∀ (s1 s2 : Nat) (b : Byte), s1 ≤ 0xFFFF → s2 ≤ 0xFFFF →
    foldByte (s1, s2) b = ((s1 + b.toNat) % 0xFFFF, (s2 + (s1 + b.toNat) % 0xFFFF) % 0xFFFF) ∧
      (foldByte (s1, s2) b).1 ≤ 0xFFFE ∧ (foldByte (s1, s2) b).2 ≤ 0xFFFE

/-- R101: the empty fold changes nothing; a non-empty one gives canonical components. -/
def Obligations.FoldRanges : Prop :=
  (∀ S : Nat × Nat, fold S [] = S) ∧
    ∀ (s1 s2 : Nat) (d : List Byte), s1 ≤ 0xFFFF → s2 ≤ 0xFFFF → d ≠ [] →
      (fold (s1, s2) d).1 ≤ 0xFFFE ∧ (fold (s1, s2) d).2 ≤ 0xFFFE

/-- R102: the closed form of the reference fold, and the rule's example, "abcde" from the seed. -/
def Obligations.FoldClosedForm : Prop :=
  (∀ (s1 s2 : Nat) (d : List Byte), s1 ≤ 0xFFFF → s2 ≤ 0xFFFF → d ≠ [] →
    fold (s1, s2) d = ((s1 + byteSum d) % 0xFFFF, (s2 + d.length * s1 + weightedSum d) % 0xFFFF)) ∧
  fold (0xFFFF, 0xFFFF) [0x61, 0x62, 0x63, 0x64, 0x65] = (0x01EF, 0x05C3)

/-- R103: folding one sequence and then another is folding their concatenation. -/
def Obligations.FoldComposes : Prop :=
  ∀ (s : Nat × Nat) (d e : List Byte), fold (fold s d) e = fold s (d ++ e)

/-- R105: the seed changes only the checksum of the empty sequence; and the rule's examples. -/
def Obligations.SeedMattersOnlyForEmpty : Prop :=
  (∀ d : List Byte, d ≠ [] → fold (0xFFFF, 0xFFFF) d = fold (0, 0) d) ∧
  checksum (0xFFFF, 0xFFFF) [] = 0xFFFFFFFF ∧ checksum (0, 0) [] = 0x00000000 ∧
  (∀ s : Nat × Nat, s = (0xFFFF, 0xFFFF) ∨ s = (0, 0) →
    checksum s [0x00] = 0x00000000 ∧ checksum s [0x61, 0x62, 0x63, 0x64, 0x65] = 0x05C301EF)

/-- R107, R104, R63: the layout of the checksum, and the checksum of the seed. -/
def Obligations.ChecksumLayout : Prop :=
  (∀ s1 s2 : Half, (ck s1 s2).toNat = s2.toNat * 65536 + s1.toNat ∧ (ck s1 s2).extractLsb' 0 16 = s1 ∧
    (ck s1 s2).extractLsb' 16 16 = s2) ∧ ck 0xFFFF 0xFFFF = 0xFFFFFFFF

/-- R155: the division-free reduction equals the reduction, for every 32-bit value. -/
def Obligations.EndAroundReduction : Prop := ∀ x : Word, redEndAround x = red x.toNat

/-! ### The pipeline -/

/-- R149, R153: every permitted schedule of a readable buffer of at least one byte, with beats or without, runs to its end and
commits exactly the reference fold of the buffer's bytes. -/
def Obligations.PermittedSchedulesCommitFold : Prop :=
  ∀ (s : State) (h : Nat) (c : Context) (ms : List Micro),
    LiveHandle s h c → 1 ≤ s.latch.len.toNat → AllReadable s → permitted s.latch.len.toNat ms = true →
      ∃ t, runMicros ms (s.load c) = some t ∧
        (t.commit h).ctx = s.ctx.set (h - 1)
          { sum1 := BitVec.ofNat 16 (fold c.pair s.bufferBytes).1, sum2 := BitVec.ofNat 16 (fold c.pair s.bufferBytes).2,
            live := true }

/-- R148: no working register overflows. After any enabled steps, beats among them, from LOAD, with `run` bytes since the last reduction,
W1 and W2 keep the bounds of the rule, and an ACC that is still allowed adds exactly. -/
def Obligations.WorkingRegistersNeverOverflow : Prop :=
  ∀ (s t : State) (c : Context) (ms : List Micro) (n run rem : Nat),
    countsAfter ms 0 n = some (run, rem) → runMicros ms (s.load c) = some t →
      t.pipe.w1.toNat ≤ 0xFFFF + 255 * run ∧ t.pipe.w2.toNat ≤ 0xFFFF * (run + 1) + 255 * run * (run + 1) / 2 ∧
      t.pipe.w1.toNat ≤ 1481295 ∧ t.pipe.w2.toNat ≤ 4294773495 ∧
      (run < Config.batchBound → ∀ b : Byte,
        (t.pipe.acc b).w1.toNat = t.pipe.w1.toNat + b.toNat ∧
        (t.pipe.acc b).w2.toNat = t.pipe.w2.toNat + (t.pipe.w1.toNat + b.toNat))

/-- R147, R142, R143: after any enabled micro-steps that read the first `n - rem` bytes of the buffer, W1 and W2 are congruent
to the two components of the fold of those bytes, REM and RUN hold the counts, and PTR the address of the next byte. -/
def Obligations.WorkingRegistersCongruent : Prop :=
  ∀ (s t : State) (c : Context) (ms : List Micro) (run rem : Nat),
    countsAfter ms 0 s.latch.len.toNat = some (run, rem) → runMicros ms (s.load c) = some t →
      t.pipe.w1.toNat % 0xFFFF = (fold c.pair (s.bufferBytes.take (s.latch.len.toNat - rem))).1 % 0xFFFF ∧
      t.pipe.w2.toNat % 0xFFFF = (fold c.pair (s.bufferBytes.take (s.latch.len.toNat - rem))).2 % 0xFFFF ∧
      t.pipe.rem.toNat = rem ∧ t.pipe.run.toNat = run ∧
      t.pipe.ptr = s.latch.addr + BitVec.ofNat 32 (s.latch.len.toNat - rem)

/-- R145, R153, log 10: the schedules the machine can take, over all lists of preferred steps, are exactly the permitted
ones. -/
def Obligations.PlannedSchedulesAreThePermitted : Prop :=
  ∀ (n : Nat) (ms : List Micro), permitted n ms = true ↔ ∃ preferred, plan n preferred 0 = ms

/-- R146: the number of ACC and RED steps of a permitted schedule, and of the reference schedule; with beats (R153) the number
of bytes folded. -/
def Obligations.ScheduleStepCounts : Prop :=
  (∀ (n : Nat) (ms : List Micro), 1 ≤ n → permitted n ms = true →
    bytesFolded ms = n ∧ ((∀ k, .beat k ∉ ms) → ms.count .acc = n) ∧
      (n + 5551) / 5552 ≤ ms.count .red ∧ ms.count .red ≤ n) ∧
  ∀ n, 1 ≤ n → (plan n [] 0).count .acc = n ∧ (plan n [] 0).count .red = (n + 5551) / 5552

/-- R153, R157: a beat leaves the working registers as the ACC steps of its bytes would; it is enabled for `k ≥ 1` bytes within
REM and the batch bound; it does what `k` ACC steps do, aborts included; and it aborts when any of its bytes is
unreadable. -/
def Obligations.BeatEqualsAccs : Prop :=
  (∀ (p : Pipe) (bs : List Byte), p.beat bs = p.accs bs) ∧
  (∀ k run rem c, Micro.counts (.beat k) run rem = some c ↔
    1 ≤ k ∧ k ≤ rem ∧ run + k ≤ 5552 ∧ c = (run + k, rem - k)) ∧
  (∀ (s : State) (k : Nat), runMicros [.beat k] s = runMicros (List.replicate k .acc) s) ∧
  ∀ (s : State) (k i : Nat), i < k → s.readable (s.pipe.ptr + BitVec.ofNat 32 i) = false → s.beat k = none

/-- R154, R151: after a run of at most 256 bytes the conditional subtractor may reduce W1; after 257 bytes, or for W2 after
one byte, it gives a wrong value. -/
def Obligations.ShortReductionDomain : Prop :=
  (∀ (p : Pipe) (bs : List Byte), p.w1.toNat ≤ 0xFFFF → bs.length ≤ 256 → (p.accs bs).redShort = (p.accs bs).red) ∧
  (∃ (p : Pipe) (bs : List Byte), p.w1.toNat ≤ 0xFFFF ∧ bs.length = 257 ∧ (p.accs bs).redShort ≠ (p.accs bs).red) ∧
  ∃ (p : Pipe) (b : Byte), p.w1 = 0xFFFF ∧ p.w2 = 0xFFFF ∧ csub (p.acc b).w2.toNat ≠ red (p.acc b).w2.toNat

/-- R150: the path for one byte gives the per-byte step, and the same sums as ACC then RED. -/
def Obligations.OneBytePathIsByteStep : Prop :=
  ∀ (p : Pipe) (b : Byte), p.w1.toNat ≤ 0xFFFF → p.w2.toNat ≤ 0xFFFF →
    ((p.oneByte b).w1.toNat, (p.oneByte b).w2.toNat) = foldByte (p.w1.toNat, p.w2.toNat) b ∧
      (p.oneByte b).w1 = (p.acc b).red.w1 ∧ (p.oneByte b).w2 = (p.acc b).red.w2

/-! ### The commands: each completes, with its effect and its frame -/

/-- R118, R120: INIT with a context free seeds the lowest-numbered one and returns its handle. -/
def Obligations.InitSeedsLowestFree : Prop :=
  ∀ (s : State) (i : Nat) (c : Context), s.numCtx ≤ 255 → s.ctx[i]? = some c → c.live = false →
    (∀ j d, j < i → s.ctx[j]? = some d → d.live = true) →
      ∃ t, exec .init s = .next t ∧ t.ctx = s.ctx.set i { sum1 := 0xFFFF, sum2 := 0xFFFF, live := true } ∧
        t.result.toNat = i + 1 ∧ CompletedWith t 0x00000000 ∧ KeepsRest s t

/-- R119: INIT with every context live. -/
def Obligations.InitAllocationFailure : Prop :=
  ∀ s : State, (∀ c ∈ s.ctx, c.live = true) →
    ∃ t, exec .init s = .next t ∧ t.ctx = s.ctx ∧ t.result = 0 ∧ CompletedWith t 0xFFFFFFFE ∧ KeepsRest s t

/-- R125, R100, R145: UPDATE of a readable buffer commits the reference fold of its bytes, whatever permitted schedule the
pipeline takes. A byte written during the command is its draw (R67 clause 3). -/
def Obligations.UpdateCommitsReferenceFold : Prop :=
  ∀ (s : State) (h : Nat) (c : Context),
    LiveHandle s h c → BufferInSpace s → 1 ≤ s.latch.len.toNat → AllReadable s →
      ∃ t, exec (.update h) s = .next t ∧
        t.ctx = s.ctx.set (h - 1)
          { sum1 := BitVec.ofNat 16 (fold c.pair s.bufferBytes).1, sum2 := BitVec.ofNat 16 (fold c.pair s.bufferBytes).2,
            live := true } ∧
        t.result = s.result ∧ CompletedWith t 0x00000000 ∧ KeepsRest s t

/-- R121, R122, R123: UPDATE with a bad handle, a null pointer with nonzero length, or a wrapping buffer. -/
def Obligations.UpdateInvalidArgument : Prop :=
  ∀ (s : State) (h : Nat),
    (BadHandle s h ∨ (s.latch.addr = 0 ∧ s.latch.len ≠ 0) ∨ 2 ^ 32 < s.latch.addr.toNat + s.latch.len.toNat) →
      ∃ t, exec (.update h) s = .next t ∧ t.ctx = s.ctx ∧ t.result = s.result ∧ CompletedWith t 0xFFFFFFFF ∧ KeepsRest s t

/-- R124, R158: an UPDATE of length 0 changes no context, not even at the seed. -/
def Obligations.UpdateOfNothing : Prop :=
  ∀ (s : State) (h : Nat) (c : Context), LiveHandle s h c → s.latch.len = 0 →
    ∃ t, exec (.update h) s = .next t ∧ t.ctx = s.ctx ∧ t.result = s.result ∧ CompletedWith t 0x00000000 ∧ KeepsRest s t

/-- R126, R157: an unreadable byte anywhere in the buffer ends UPDATE with BUS_ERROR, and the context keeps its value,
whether the schedule meets the byte in an ACC or in a beat. -/
def Obligations.UpdateBusError : Prop :=
  ∀ (s : State) (h : Nat) (c : Context) (i : Nat),
    LiveHandle s h c → BufferInSpace s → i < s.latch.len.toNat →
      s.readable (s.latch.addr + BitVec.ofNat 32 i) = false →
      ∃ t, exec (.update h) s = .next t ∧ t.ctx = s.ctx ∧ t.result = s.result ∧ CompletedWith t 0xFFFFFFFC ∧ KeepsRest s t

/-- R129, R107: FINAL of a live context returns `(sum2 << 16) | sum1` and changes no context. -/
def Obligations.FinalReturnsChecksum : Prop :=
  ∀ (s : State) (h : Nat) (c : Context), LiveHandle s h c →
    ∃ t, exec (.final h) s = .next t ∧ t.ctx = s.ctx ∧ t.result.toNat = c.sum2.toNat * 65536 + c.sum1.toNat ∧
      CompletedWith t 0x00000000 ∧ KeepsRest s t

/-- R129, R131: FINAL with a bad handle; RESULT keeps its value. -/
def Obligations.FinalInvalidArgument : Prop :=
  ∀ (s : State) (h : Nat), BadHandle s h →
    ∃ t, exec (.final h) s = .next t ∧ t.ctx = s.ctx ∧ t.result = s.result ∧ CompletedWith t 0xFFFFFFFF ∧ KeepsRest s t

/-- R132: FREE of a live context clears its live bit and nothing else of it. -/
def Obligations.FreeReleases : Prop :=
  ∀ (s : State) (h : Nat) (c : Context), LiveHandle s h c →
    ∃ t, exec (.free h) s = .next t ∧ t.ctx = s.ctx.set (h - 1) { sum1 := c.sum1, sum2 := c.sum2, live := false } ∧
      t.result = s.result ∧ CompletedWith t 0x00000000 ∧ KeepsRest s t

/-- R132: FREE of a null, out-of-range or non-live handle is a no-op that completes with OK. -/
def Obligations.FreeOfOtherIsNoOp : Prop :=
  ∀ (s : State) (h : Nat), BadHandle s h →
    ∃ t, exec (.free h) s = .next t ∧ t.ctx = s.ctx ∧ t.result = s.result ∧ CompletedWith t 0x00000000 ∧ KeepsRest s t

/-- R134, R169: a word outside the opcode map, when its command is in flight, completes with ILLEGAL_COMMAND and changes
nothing else. -/
def Obligations.IllegalChangesOnlyCode : Prop :=
  ∀ (s : State) (why : Illegal), s.engineTurn = true → decode s.latch.w = .illegal why →
    ∃ t, step s = .next t ∧ t.ctx = s.ctx ∧ t.result = s.result ∧ CompletedWith t 0xFFFFFFFD ∧ KeepsRest s t

/-- R22: a command changes at most the context it names (INIT: the one it allocates). -/
def Obligations.OtherContextsUnchanged : Prop :=
  ∀ (i : Instr) (s t : State), exec i s = .next t →
    t.numCtx = s.numCtx ∧ ∀ k, namedBy i s ≠ some k → t.ctxAt k = s.ctxAt k

/-- R12, R31, R52, R113, R168: the frame of all four commands, and that BUSY ends and CODE is a status code. -/
def Obligations.CommandFrame : Prop :=
  ∀ (i : Instr) (s t : State), exec i s = .next t →
    KeepsRest s t ∧ t.status.busy = false ∧ codeLegal t.code = true ∧
      ((∃ h, i = .update h ∨ i = .free h) → t.result = s.result) ∧
      ((∃ h, i = .final h) → t.ctx = s.ctx)

/-- R22, R136: a command's CODE and RESULT, and every other context, do not depend on the sums of a context it does not name;
those sums are carried along unchanged. -/
def Obligations.OtherSumsAreNotObserved : Prop :=
  ∀ (i : Instr) (s t : State) (k : Nat) (a b : Half),
    exec i s = .next t → namedBy i s ≠ some k →
      exec i (s.modifyCtx k (withSums a b)) = .next (t.modifyCtx k (withSums a b))

/-- R73: two UPDATEs of different contexts, each with its own buffer, commute in their effect on the context file. -/
def Obligations.UpdatesOfDistinctContextsCommute : Prop :=
  ∀ (s : State) (h k : Nat) (a m b n : Word), h ≠ k → NoDraws s →
    ∃ t1 t2 u1 u2,
      exec (.update h) (withBuffer s a m) = .next t1 ∧ exec (.update k) (withBuffer t1 b n) = .next t2 ∧
      exec (.update k) (withBuffer s b n) = .next u1 ∧ exec (.update h) (withBuffer u1 a m) = .next u2 ∧ t2.ctx = u2.ctx

/-- R127, R103: a buffer folded in two pieces, either of them possibly empty, gives what one UPDATE of the whole gives. -/
def Obligations.ChunkingDoesNotMatter : Prop :=
  ∀ (s : State) (h : Nat) (c : Context) (a : Word) (m n : Nat),
    LiveHandle s h c → NoDraws s → a ≠ 0 → m + n < 2 ^ 32 → a.toNat + (m + n) ≤ 2 ^ 32 →
    AllReadable (withBuffer s a (BitVec.ofNat 32 (m + n))) →
      ∃ t1 t2 u,
        exec (.update h) (withBuffer s a (BitVec.ofNat 32 m)) = .next t1 ∧ t1.code = 0 ∧
        exec (.update h) (withBuffer t1 (a + BitVec.ofNat 32 m) (BitVec.ofNat 32 n)) = .next t2 ∧ t2.code = 0 ∧
        exec (.update h) (withBuffer s a (BitVec.ofNat 32 (m + n))) = .next u ∧ u.code = 0 ∧ t2.ctx = u.ctx

/-- R130: a second FINAL returns the same checksum and the contexts are as before the first. -/
def Obligations.FinalIsAPeek : Prop :=
  ∀ (s : State) (h : Nat) (c : Context), LiveHandle s h c →
    ∃ t u, exec (.final h) s = .next t ∧ exec (.final h) t = .next u ∧ u.result = t.result ∧ t.ctx = s.ctx ∧ u.ctx = s.ctx

/-- R133: after FREE h, an INIT can return h again; a second FREE of h then releases the new owner's context, and FINAL of h
fails. -/
def Obligations.StaleHandleReleasesNewOwner : Prop :=
  ∀ (s : State) (h : Nat) (c : Context), LiveHandle s h c → s.numCtx ≤ 255 →
    (∀ j d, j < h - 1 → s.ctx[j]? = some d → d.live = true) →
      ∃ t1 t2 t3 t4,
        exec (.free h) s = .next t1 ∧ exec .init t1 = .next t2 ∧ t2.result.toNat = h ∧ t2.code = 0 ∧
        exec (.free h) t2 = .next t3 ∧ t3.code = 0 ∧ exec (.final h) t3 = .next t4 ∧ t4.code = 0xFFFFFFFF

/-! ### Issue, completion and the step -/

/-- R113, R115: when the engine moves and the latched word decodes to a command, the step is exactly that command's meaning;
`withFetchWord` is the issue of a word, after which the engine moves. -/
def Obligations.StepRunsDecodedCommand : Prop :=
  (∀ (s : State) (i : Instr), s.engineTurn = true → decode s.latch.w = .instr i → step s = exec i s) ∧
  ∀ (s : State) (w : Nat) (i : Instr), decode (BitVec.ofNat 32 (w % 2 ^ 32)) = .instr i →
    step (s.withFetchWord 32 w) = exec i (s.withFetchWord 32 w) ∧
      (s.withFetchWord 32 w).latch = { w := BitVec.ofNat 32 (w % 2 ^ 32), addr := s.addr, len := s.len } ∧
      (s.withFetchWord 32 w).ctx = s.ctx ∧ (s.withFetchWord 32 w).mem = s.mem

/-- R111, R112: a CMD write while BUSY = 0 is an accepted issue: BUSY is set, the word, ADDR and LEN are latched, and nothing
the host can read changes but BUSY. -/
def Obligations.AcceptedIssueLatches : Prop :=
  ∀ (s : State) (v : Word) (rest : List HostStmt),
    s.status.busy = false → s.host = .write s.params.regBase .word v :: rest →
      ∃ t, step s = .next t ∧ t.status.busy = true ∧ t.latch = { w := v, addr := s.addr, len := s.len } ∧
        t.ctx = s.ctx ∧ t.code = s.code ∧ t.result = s.result ∧ t.addr = s.addr ∧ t.len = s.len ∧
        t.status.ovr = s.status.ovr ∧ t.mem = s.mem ∧ t.params = s.params ∧ t.host = rest ∧ t.hostReads = s.hostReads ∧
        t.idleSeen = false

/-- R114: a CMD write while BUSY = 1 is dropped and sets OVR; no latch, context, CODE or RESULT changes. -/
def Obligations.CmdWriteWhileBusyIsDropped : Prop :=
  ∀ (s : State) (v : Word) (rest : List HostStmt),
    s.status.busy = true → s.delay ≠ 0 → s.host = .write s.params.regBase .word v :: rest →
      ∃ t, step s = .next t ∧ t.status = { busy := true, ovr := true } ∧ t.latch = s.latch ∧ t.ctx = s.ctx ∧
        t.code = s.code ∧ t.result = s.result ∧ t.addr = s.addr ∧ t.len = s.len ∧ t.pipe = s.pipe ∧ t.mem = s.mem ∧
        t.params = s.params ∧ t.host = rest ∧ t.hostReads = s.hostReads ∧ t.idleSeen = s.idleSeen

/-- R27, R28, R112: a command does not see ADDR and LEN, only its latches. -/
def Obligations.CommandsReadOnlyLatches : Prop :=
  ∀ (i : Instr) (s t : State) (a n : Word),
    exec i s = .next t → exec i { s with addr := a, len := n } = .next { t with addr := a, len := n }

/-- R29, R111, R113, R114, R185: what sets and what clears the two flags of STATUS. -/
def Obligations.FlagsChangeOnlyByIssueCompletionOverrunReset : Prop :=
  ∀ s t : State, step s = .next t →
    (s.status.ovr = true → t.status.ovr = false → s.engineTurn = false ∧ ∃ rest, s.host = .reset :: rest) ∧
    (s.status.ovr = false → t.status.ovr = true →
      s.engineTurn = false ∧ s.status.busy = true ∧ ∃ v rest, s.host = .write s.params.regBase .word v :: rest) ∧
    (s.status.busy = false → t.status.busy = true → ∃ v rest, s.host = .write s.params.regBase .word v :: rest) ∧
    (s.status.busy = true → t.status.busy = false → s.engineTurn = true ∨ ∃ rest, s.host = .reset :: rest)

/-- R25: a write to a read-only or reserved register changes nothing. -/
def Obligations.ReadOnlyWritesIgnored : Prop :=
  ∀ (s : State) (r : HostReg) (v : Word) (rest : List HostStmt),
    s.engineTurn = false → (r = .status ∨ r = .code ∨ r = .result ∨ r = .config ∨ r = .reserved) →
    s.host = .write (s.params.regBase + r.offset) .word v :: rest → step s = .next (s.takeStmt rest)

/-- R27, R28: ADDR and LEN take every value written, while BUSY = 1 too, and read it back. -/
def Obligations.AddrAndLenReadBack : Prop :=
  ∀ (s : State) (v : Word) (rest : List HostStmt), s.engineTurn = false →
    (s.host = .write (s.params.regBase + 0x04) .word v :: rest →
      ∃ t, step s = .next t ∧ t = { s.takeStmt rest with addr := v } ∧ t.readReg .addr = v) ∧
    (s.host = .write (s.params.regBase + 0x08) .word v :: rest →
      ∃ t, step s = .next t ∧ t = { s.takeStmt rest with len := v } ∧ t.readReg .len = v)

/-- R8, R25, R29, R32, R66: a host read of a register returns its value, and a host load of a data byte the stored byte (in a
side-effecting region a free value, log 22); neither changes the F32A or memory. -/
def Obligations.HostReadReturnsRegister : Prop :=
  (∀ (s : State) (r : HostReg) (rest : List HostStmt),
    s.engineTurn = false → s.host = .read (s.params.regBase + r.offset) .word :: rest →
      step s = .next { s.takeStmt rest with
        hostReads := .reg r (s.readReg r) :: s.hostReads
        idleSeen := s.idleSeen || (r == .status && !s.status.busy) } ∧
      s.readReg .cmd = 0 ∧ s.readReg .addr = s.addr ∧ s.readReg .len = s.len ∧
      (s.readReg .status).toNat = (if s.status.busy then 1 else 0) + (if s.status.ovr then 2 else 0) ∧
      s.readReg .code = s.code ∧ s.readReg .result = s.result ∧ s.readReg .config = BitVec.ofNat 32 s.ctx.length ∧
      s.readReg .reserved = 0) ∧
  ∀ (s : State) (a : Word) (rest : List HostStmt), s.engineTurn = false → s.host = .load a :: rest →
    (∃ b, step s = .next { s.takeStmt rest with hostReads := .data a b :: s.hostReads, draws := s.draws + 1 }) ∧
    (s.params.sideEffects.any (·.contains a) = false →
      step s = .next { s.takeStmt rest with
        hostReads := .data a (Memory.read s.mem a.toNat) :: s.hostReads
        draws := s.draws + 1 })

/-- R56: a host access that touches the window and is not a 32-bit access at a 4-byte-aligned offset is refused. -/
def Obligations.OtherWindowAccessRefused : Prop :=
  ∀ (s : State) (a : Nat) (z : Size) (v : Word) (rest : List HostStmt),
    s.engineTurn = false → a < s.params.regBase + 32 → s.params.regBase < a + z.bytes →
    (z ≠ .word ∨ a < s.params.regBase ∨ (a - s.params.regBase) % 4 ≠ 0) →
    (s.host = .write a z v :: rest ∨ s.host = .read a z :: rest) → step s = .refused .windowAccess

/-- R30, R31, R113, R191: CODE, RESULT and the context file change only at a completion or a reset. -/
def Obligations.ResultsChangeOnlyAtCompletion : Prop :=
  ∀ s t : State, step s = .next t → s.engineTurn = false → (∀ rest, s.host ≠ .reset :: rest) →
    t.code = s.code ∧ t.result = s.result ∧ t.ctx = s.ctx

/-- R117, R200, log 1: an accepted command completes after finitely many steps, if the host makes no access that is
refused. -/
def Obligations.CompletionIsCertain : Prop :=
  ∀ s : State, s.status.busy = true →
    (∀ st ∈ s.host, ∀ a z, (st = .read a z ∨ ∃ v, st = .write a z v) →
      decodeAccess s.params.regBase a z ≠ .bad) →
      ∃ k, k ≤ s.delay + 1 ∧ ∃ t : State, Host.Core.run Sys2Proof.core k s = .next t ∧ t.status.busy = false

/-- R84, R183, R190, R198: WAIT reads STATUS, stays while that read gives BUSY = 1 and ends when it gives BUSY = 0; with no
command in flight and no statement left the machine is idle and keeps all its state; the host sees the machine idle only by a
read of STATUS with BUSY = 0; and a program has ended when no statement is left and the host has seen that, so that, under the
invariant, no command is in flight. -/
def Obligations.WaitAndIdle : Prop :=
  (∀ (s : State) (rest : List HostStmt), s.engineTurn = false → s.host = .wait :: rest →
    (s.status.busy = true → step s = .next { s with
      delay := s.delay - 1
      hostReads := .reg .status s.status.word :: s.hostReads }) ∧
    (s.status.busy = false → step s = .next { s.takeStmt rest with
      hostReads := .reg .status s.status.word :: s.hostReads
      idleSeen := true })) ∧
  (∀ s : State, s.status.busy = false → s.host = [] → step s = .next s) ∧
  (∀ s t : State, step s = .next t → s.idleSeen = false → t.idleSeen = true →
    s.engineTurn = false ∧ s.status.busy = false ∧
      ∃ rest, s.host = .wait :: rest ∨ s.host = .read (s.params.regBase + 0x0C) .word :: rest) ∧
  ∀ s : State, (s.programEnded = true ↔ s.host = [] ∧ s.idleSeen = true) ∧
    (MachineInv s = true → s.programEnded = true → s.status.busy = false)

/-! ### Data memory -/

/-- R60, R61: the bytes an UPDATE folds are the stored bytes at rising addresses, when the host kept the buffer still and it
lies in no side-effecting region. -/
def Obligations.BufferBytesAreStored : Prop :=
  ∀ s : State, BufferInSpace s → bufferStill s = true → bufferQuiet s = true →
    s.bufferBytes = (List.range s.latch.len.toNat).map fun i => Memory.read s.mem (s.latch.addr.toNat + i)

/-- R67 clauses 1 and 3, R68: what a command's later read of a byte gives after a host store. With no command in flight it is the byte
stored and every other address reads as before; while a command is in flight it is a draw. -/
def Obligations.HostStoreIsSeenOrDrawn : Prop :=
  ∀ (s : State) (a : Word) (v : Byte), Memory.wf s.mem = true →
    (s.status.busy = false → s.isDraw a = false → (s.hostStore a v).byteAt a = v) ∧
    (s.status.busy = false → ∀ b, b ≠ a → (s.hostStore a v).byteAt b = s.byteAt b) ∧
    (s.status.busy = true → (s.hostStore a v).byteAt a = Config.drawnByte s.draws a) ∧
    (s.status.busy = true → ∀ b, b ≠ a → (s.hostStore a v).byteAt b = s.byteAt b)

/-- R52, R66: data memory changes only by a store of the host; no command, no register access and no reset writes it. -/
def Obligations.OnlyHostStoresChangeMemory : Prop :=
  ∀ s t : State, step s = .next t →
    t.mem = s.mem ∨ ∃ a v rest, s.engineTurn = false ∧ s.host = .store a v :: rest ∧
      t.mem = Memory.write s.mem a.toNat v ∧
      (Memory.wf s.mem = true → ∀ b, Memory.read t.mem b = if b = a.toNat then v else Memory.read s.mem b)

/-! ### Reset and the whole machine -/

/-- R185: the values the spec gives for reset, for every NUM_CTX and all parameters. -/
def Obligations.ResetValues : Prop :=
  ∀ (n : Nat) (p : Params),
    (State.resetWith n p).numCtx = n ∧ (∀ c ∈ (State.resetWith n p).ctx, c.live = false) ∧
    (State.resetWith n p).addr = 0 ∧ (State.resetWith n p).len = 0 ∧
    (State.resetWith n p).readReg .status = 0 ∧ (State.resetWith n p).code = 0 ∧ (State.resetWith n p).result = 0 ∧
    (State.resetWith n p).readReg .config = BitVec.ofNat 32 n

/-- R185, R186: reset while a command is in flight abandons it; the spec's reset values are taken, OVR is cleared, no context
is live, and data memory stays. -/
def Obligations.ResetAbandonsCommand : Prop :=
  ∀ (s : State) (rest : List HostStmt), s.engineTurn = false → s.host = .reset :: rest →
    ∃ t, step s = .next t ∧ t.status = { busy := false, ovr := false } ∧ (∀ c ∈ t.ctx, c.live = false) ∧
      t.numCtx = s.numCtx ∧ t.addr = 0 ∧ t.len = 0 ∧ t.code = 0 ∧ t.result = 0 ∧ t.mem = s.mem ∧ t.params = s.params ∧
      t.host = rest

/-- R32, R10: NUM_CTX, read in CONFIG, and the other parameters are constant. -/
def Obligations.ParametersAreConstant : Prop :=
  ∀ s t : State, step s = .next t →
    t.params = s.params ∧ t.numCtx = s.numCtx ∧ t.readReg .config = s.readReg .config

/-- R21, R30, R37, R165, R198: the invariant of the machine is kept by every step, from every state that meets it. -/
def Obligations.InvariantKeptByStep : Prop := ∀ s t : State, MachineInv s = true → step s = .next t → MachineInv t = true

/-- The invariant holds at reset, for the parameters of `State.reset` and for any legal ones. -/
def Obligations.InvariantHoldsAtReset : Prop :=
  MachineInv State.reset = true ∧
    ∀ (n : Nat) (p : Params), 1 ≤ n → n ≤ 255 → p.regBase % 32 = 0 → MachineInv (State.resetWith n p) = true
end

