-- ==== Sys2Proof/Laws/Arith.lean ====
section
/-! SUPPORT. The arithmetic, in terms of `%`, `+` and `*`. -/

namespace Sys2Proof.Machine

theorem red_eq (x : Nat) : red x = x % 65535 := rfl

theorem red_lt (x : Nat) : red x < 65535 := Nat.mod_lt _ (by decide)

@[simp] theorem canonical_iff (x : Nat) : canonical x = true ↔ x < 65535 := decide_eq_true_iff

theorem csub_eq (x : Nat) : csub x = if 65535 ≤ x then x - 65535 else x := rfl

@[simp] theorem fold_nil (s : Nat × Nat) : fold s [] = s := rfl
@[simp] theorem fold_cons (s : Nat × Nat) (b : Byte) (d : List Byte) : fold s (b :: d) = fold (foldByte s b) d := rfl

/-- Folding one more byte at the end. -/
theorem fold_concat (s : Nat × Nat) (d : List Byte) (b : Byte) : fold s (d ++ [b]) = foldByte (fold s d) b := by
  induction d generalizing s with
  | nil => rfl
  | cons a d ih => simp [ih]

@[simp] theorem byteSum_nil : byteSum [] = 0 := rfl
@[simp] theorem byteSum_cons (b : Byte) (d : List Byte) : byteSum (b :: d) = b.toNat + byteSum d := rfl
@[simp] theorem weightedSum_nil : weightedSum [] = 0 := rfl
@[simp] theorem weightedSum_cons (b : Byte) (d : List Byte) :
    weightedSum (b :: d) = (d.length + 1) * b.toNat + weightedSum d := rfl

end Sys2Proof.Machine
end

