-- ==== Sys2Proof/Laws/State.lean ====
section
/-! SUPPORT. What each update of the state does to each field. -/

namespace Sys2Proof.Machine.State

@[simp] theorem complete_eq (s : State) : s.complete = s.endCommand .ok := rfl
@[simp] theorem raiseError_eq (s : State) (c : Code) : s.raiseError c = s.endCommand c := rfl

@[simp] theorem finish_busy (t : Status) : t.finish.busy = false := rfl
@[simp] theorem finish_ovr (t : Status) : t.finish.ovr = t.ovr := rfl
@[simp] theorem issue_busy (t : Status) : t.issue.busy = true := rfl
@[simp] theorem issue_ovr (t : Status) : t.issue.ovr = t.ovr := rfl
@[simp] theorem overrun_busy (t : Status) : t.overrun.busy = t.busy := rfl
@[simp] theorem overrun_ovr (t : Status) : t.overrun.ovr = true := rfl

@[simp] theorem setResult_ctx (s : State) (v : Word) : (s.setResult v).ctx = s.ctx := rfl
@[simp] theorem setResult_addr (s : State) (v : Word) : (s.setResult v).addr = s.addr := rfl
@[simp] theorem setResult_len (s : State) (v : Word) : (s.setResult v).len = s.len := rfl
@[simp] theorem setResult_status (s : State) (v : Word) : (s.setResult v).status = s.status := rfl
@[simp] theorem setResult_code (s : State) (v : Word) : (s.setResult v).code = s.code := rfl
@[simp] theorem setResult_result (s : State) (v : Word) : (s.setResult v).result = v := rfl
@[simp] theorem setResult_latch (s : State) (v : Word) : (s.setResult v).latch = s.latch := rfl
@[simp] theorem setResult_pipe (s : State) (v : Word) : (s.setResult v).pipe = s.pipe := rfl
@[simp] theorem setResult_mem (s : State) (v : Word) : (s.setResult v).mem = s.mem := rfl
@[simp] theorem setResult_params (s : State) (v : Word) : (s.setResult v).params = s.params := rfl
@[simp] theorem setResult_host (s : State) (v : Word) : (s.setResult v).host = s.host := rfl
@[simp] theorem setResult_hostReads (s : State) (v : Word) : (s.setResult v).hostReads = s.hostReads := rfl
@[simp] theorem setResult_idleSeen (s : State) (v : Word) : (s.setResult v).idleSeen = s.idleSeen := rfl
@[simp] theorem setResult_delay (s : State) (v : Word) : (s.setResult v).delay = s.delay := rfl
@[simp] theorem setResult_raced (s : State) (v : Word) : (s.setResult v).raced = s.raced := rfl
@[simp] theorem setResult_draws (s : State) (v : Word) : (s.setResult v).draws = s.draws := rfl

@[simp] theorem endCommand_ctx (s : State) (c : Code) : (s.endCommand c).ctx = s.ctx := rfl
@[simp] theorem endCommand_addr (s : State) (c : Code) : (s.endCommand c).addr = s.addr := rfl
@[simp] theorem endCommand_len (s : State) (c : Code) : (s.endCommand c).len = s.len := rfl
@[simp] theorem endCommand_status (s : State) (c : Code) : (s.endCommand c).status = s.status.finish := rfl
@[simp] theorem endCommand_code (s : State) (c : Code) : (s.endCommand c).code = c.word := rfl
@[simp] theorem endCommand_result (s : State) (c : Code) : (s.endCommand c).result = s.result := rfl
@[simp] theorem endCommand_latch (s : State) (c : Code) : (s.endCommand c).latch = idleLatch s.draws := rfl
@[simp] theorem endCommand_pipe (s : State) (c : Code) : (s.endCommand c).pipe = idlePipe s.draws := rfl
@[simp] theorem endCommand_mem (s : State) (c : Code) : (s.endCommand c).mem = s.mem := rfl
@[simp] theorem endCommand_params (s : State) (c : Code) : (s.endCommand c).params = s.params := rfl
@[simp] theorem endCommand_host (s : State) (c : Code) : (s.endCommand c).host = s.host := rfl
@[simp] theorem endCommand_hostReads (s : State) (c : Code) : (s.endCommand c).hostReads = s.hostReads := rfl
@[simp] theorem endCommand_idleSeen (s : State) (c : Code) : (s.endCommand c).idleSeen = s.idleSeen := rfl
@[simp] theorem endCommand_delay (s : State) (c : Code) : (s.endCommand c).delay = 0 := rfl
@[simp] theorem endCommand_raced (s : State) (c : Code) : (s.endCommand c).raced = [] := rfl
@[simp] theorem endCommand_draws (s : State) (c : Code) : (s.endCommand c).draws = s.draws + 1 := rfl

@[simp] theorem load_ctx (s : State) (c : Context) : (s.load c).ctx = s.ctx := rfl
@[simp] theorem load_addr (s : State) (c : Context) : (s.load c).addr = s.addr := rfl
@[simp] theorem load_len (s : State) (c : Context) : (s.load c).len = s.len := rfl
@[simp] theorem load_status (s : State) (c : Context) : (s.load c).status = s.status := rfl
@[simp] theorem load_code (s : State) (c : Context) : (s.load c).code = s.code := rfl
@[simp] theorem load_result (s : State) (c : Context) : (s.load c).result = s.result := rfl
@[simp] theorem load_latch (s : State) (c : Context) : (s.load c).latch = s.latch := rfl
@[simp] theorem load_pipe (s : State) (c : Context) : (s.load c).pipe = Pipe.loaded c s.latch := rfl
@[simp] theorem load_mem (s : State) (c : Context) : (s.load c).mem = s.mem := rfl
@[simp] theorem load_params (s : State) (c : Context) : (s.load c).params = s.params := rfl
@[simp] theorem load_host (s : State) (c : Context) : (s.load c).host = s.host := rfl
@[simp] theorem load_hostReads (s : State) (c : Context) : (s.load c).hostReads = s.hostReads := rfl
@[simp] theorem load_idleSeen (s : State) (c : Context) : (s.load c).idleSeen = s.idleSeen := rfl
@[simp] theorem load_delay (s : State) (c : Context) : (s.load c).delay = s.delay := rfl
@[simp] theorem load_raced (s : State) (c : Context) : (s.load c).raced = s.raced := rfl
@[simp] theorem load_draws (s : State) (c : Context) : (s.load c).draws = s.draws := rfl

@[simp] theorem red_ctx (s : State) : s.red.ctx = s.ctx := rfl
@[simp] theorem red_addr (s : State) : s.red.addr = s.addr := rfl
@[simp] theorem red_len (s : State) : s.red.len = s.len := rfl
@[simp] theorem red_status (s : State) : s.red.status = s.status := rfl
@[simp] theorem red_code (s : State) : s.red.code = s.code := rfl
@[simp] theorem red_result (s : State) : s.red.result = s.result := rfl
@[simp] theorem red_latch (s : State) : s.red.latch = s.latch := rfl
@[simp] theorem red_pipe (s : State) : s.red.pipe = s.pipe.red := rfl
@[simp] theorem red_mem (s : State) : s.red.mem = s.mem := rfl
@[simp] theorem red_params (s : State) : s.red.params = s.params := rfl
@[simp] theorem red_host (s : State) : s.red.host = s.host := rfl
@[simp] theorem red_hostReads (s : State) : s.red.hostReads = s.hostReads := rfl
@[simp] theorem red_idleSeen (s : State) : s.red.idleSeen = s.idleSeen := rfl
@[simp] theorem red_delay (s : State) : s.red.delay = s.delay := rfl
@[simp] theorem red_raced (s : State) : s.red.raced = s.raced := rfl
@[simp] theorem red_draws (s : State) : s.red.draws = s.draws := rfl

@[simp] theorem issue_ctx (s : State) (w : Word) : (s.issue w).ctx = s.ctx := rfl
@[simp] theorem issue_addr (s : State) (w : Word) : (s.issue w).addr = s.addr := rfl
@[simp] theorem issue_len (s : State) (w : Word) : (s.issue w).len = s.len := rfl
@[simp] theorem issue_status (s : State) (w : Word) : (s.issue w).status = s.status.issue := rfl
@[simp] theorem issue_code (s : State) (w : Word) : (s.issue w).code = s.code := rfl
@[simp] theorem issue_result (s : State) (w : Word) : (s.issue w).result = s.result := rfl
@[simp] theorem issue_latch (s : State) (w : Word) : (s.issue w).latch = { w := w, addr := s.addr, len := s.len } := rfl
@[simp] theorem issue_pipe (s : State) (w : Word) : (s.issue w).pipe = s.pipe := rfl
@[simp] theorem issue_mem (s : State) (w : Word) : (s.issue w).mem = s.mem := rfl
@[simp] theorem issue_params (s : State) (w : Word) : (s.issue w).params = s.params := rfl
@[simp] theorem issue_host (s : State) (w : Word) : (s.issue w).host = s.host := rfl
@[simp] theorem issue_hostReads (s : State) (w : Word) : (s.issue w).hostReads = s.hostReads := rfl
@[simp] theorem issue_idleSeen (s : State) (w : Word) : (s.issue w).idleSeen = false := rfl
@[simp] theorem issue_delay (s : State) (w : Word) : (s.issue w).delay = Config.busyDelay s.draws := rfl
@[simp] theorem issue_raced (s : State) (w : Word) : (s.issue w).raced = [] := rfl
@[simp] theorem issue_draws (s : State) (w : Word) : (s.issue w).draws = s.draws := rfl

@[simp] theorem placeWord_ctx (s : State) (w : Word) : (s.placeWord w).ctx = s.ctx := rfl
@[simp] theorem placeWord_addr (s : State) (w : Word) : (s.placeWord w).addr = s.addr := rfl
@[simp] theorem placeWord_len (s : State) (w : Word) : (s.placeWord w).len = s.len := rfl
@[simp] theorem placeWord_status (s : State) (w : Word) : (s.placeWord w).status = s.status.issue := rfl
@[simp] theorem placeWord_code (s : State) (w : Word) : (s.placeWord w).code = s.code := rfl
@[simp] theorem placeWord_result (s : State) (w : Word) : (s.placeWord w).result = s.result := rfl
@[simp] theorem placeWord_latch (s : State) (w : Word) : (s.placeWord w).latch = { w := w, addr := s.addr, len := s.len } := rfl
@[simp] theorem placeWord_pipe (s : State) (w : Word) : (s.placeWord w).pipe = s.pipe := rfl
@[simp] theorem placeWord_mem (s : State) (w : Word) : (s.placeWord w).mem = s.mem := rfl
@[simp] theorem placeWord_params (s : State) (w : Word) : (s.placeWord w).params = s.params := rfl
@[simp] theorem placeWord_host (s : State) (w : Word) : (s.placeWord w).host = s.host := rfl
@[simp] theorem placeWord_hostReads (s : State) (w : Word) : (s.placeWord w).hostReads = s.hostReads := rfl
@[simp] theorem placeWord_idleSeen (s : State) (w : Word) : (s.placeWord w).idleSeen = false := rfl
@[simp] theorem placeWord_delay (s : State) (w : Word) : (s.placeWord w).delay = 0 := rfl
@[simp] theorem placeWord_raced (s : State) (w : Word) : (s.placeWord w).raced = [] := rfl
@[simp] theorem placeWord_draws (s : State) (w : Word) : (s.placeWord w).draws = s.draws := rfl

@[simp] theorem hostStore_ctx (s : State) (a : Word) (v : Byte) : (s.hostStore a v).ctx = s.ctx := rfl
@[simp] theorem hostStore_addr (s : State) (a : Word) (v : Byte) : (s.hostStore a v).addr = s.addr := rfl
@[simp] theorem hostStore_len (s : State) (a : Word) (v : Byte) : (s.hostStore a v).len = s.len := rfl
@[simp] theorem hostStore_status (s : State) (a : Word) (v : Byte) : (s.hostStore a v).status = s.status := rfl
@[simp] theorem hostStore_code (s : State) (a : Word) (v : Byte) : (s.hostStore a v).code = s.code := rfl
@[simp] theorem hostStore_result (s : State) (a : Word) (v : Byte) : (s.hostStore a v).result = s.result := rfl
@[simp] theorem hostStore_latch (s : State) (a : Word) (v : Byte) : (s.hostStore a v).latch = s.latch := rfl
@[simp] theorem hostStore_pipe (s : State) (a : Word) (v : Byte) : (s.hostStore a v).pipe = s.pipe := rfl
@[simp] theorem hostStore_mem (s : State) (a : Word) (v : Byte) : (s.hostStore a v).mem = Memory.write s.mem a.toNat v := rfl
@[simp] theorem hostStore_params (s : State) (a : Word) (v : Byte) : (s.hostStore a v).params = s.params := rfl
@[simp] theorem hostStore_host (s : State) (a : Word) (v : Byte) : (s.hostStore a v).host = s.host := rfl
@[simp] theorem hostStore_hostReads (s : State) (a : Word) (v : Byte) : (s.hostStore a v).hostReads = s.hostReads := rfl
@[simp] theorem hostStore_idleSeen (s : State) (a : Word) (v : Byte) : (s.hostStore a v).idleSeen = s.idleSeen := rfl
@[simp] theorem hostStore_delay (s : State) (a : Word) (v : Byte) : (s.hostStore a v).delay = s.delay := rfl
@[simp] theorem hostStore_raced (s : State) (a : Word) (v : Byte) : (s.hostStore a v).raced = if s.status.busy then a :: s.raced else s.raced := rfl
@[simp] theorem hostStore_draws (s : State) (a : Word) (v : Byte) : (s.hostStore a v).draws = s.draws := rfl

@[simp] theorem recordRead_ctx (s : State) (r : HostReg) : (s.recordRead r).ctx = s.ctx := rfl
@[simp] theorem recordRead_addr (s : State) (r : HostReg) : (s.recordRead r).addr = s.addr := rfl
@[simp] theorem recordRead_len (s : State) (r : HostReg) : (s.recordRead r).len = s.len := rfl
@[simp] theorem recordRead_status (s : State) (r : HostReg) : (s.recordRead r).status = s.status := rfl
@[simp] theorem recordRead_code (s : State) (r : HostReg) : (s.recordRead r).code = s.code := rfl
@[simp] theorem recordRead_result (s : State) (r : HostReg) : (s.recordRead r).result = s.result := rfl
@[simp] theorem recordRead_latch (s : State) (r : HostReg) : (s.recordRead r).latch = s.latch := rfl
@[simp] theorem recordRead_pipe (s : State) (r : HostReg) : (s.recordRead r).pipe = s.pipe := rfl
@[simp] theorem recordRead_mem (s : State) (r : HostReg) : (s.recordRead r).mem = s.mem := rfl
@[simp] theorem recordRead_params (s : State) (r : HostReg) : (s.recordRead r).params = s.params := rfl
@[simp] theorem recordRead_host (s : State) (r : HostReg) : (s.recordRead r).host = s.host := rfl
@[simp] theorem recordRead_hostReads (s : State) (r : HostReg) : (s.recordRead r).hostReads = .reg r (s.readReg r) :: s.hostReads := rfl
@[simp] theorem recordRead_idleSeen (s : State) (r : HostReg) : (s.recordRead r).idleSeen = (s.idleSeen || s.showsIdle r) := rfl
@[simp] theorem recordRead_delay (s : State) (r : HostReg) : (s.recordRead r).delay = s.delay := rfl
@[simp] theorem recordRead_raced (s : State) (r : HostReg) : (s.recordRead r).raced = s.raced := rfl
@[simp] theorem recordRead_draws (s : State) (r : HostReg) : (s.recordRead r).draws = s.draws := rfl

@[simp] theorem recordLoad_ctx (s : State) (a : Word) : (s.recordLoad a).ctx = s.ctx := rfl
@[simp] theorem recordLoad_addr (s : State) (a : Word) : (s.recordLoad a).addr = s.addr := rfl
@[simp] theorem recordLoad_len (s : State) (a : Word) : (s.recordLoad a).len = s.len := rfl
@[simp] theorem recordLoad_status (s : State) (a : Word) : (s.recordLoad a).status = s.status := rfl
@[simp] theorem recordLoad_code (s : State) (a : Word) : (s.recordLoad a).code = s.code := rfl
@[simp] theorem recordLoad_result (s : State) (a : Word) : (s.recordLoad a).result = s.result := rfl
@[simp] theorem recordLoad_latch (s : State) (a : Word) : (s.recordLoad a).latch = s.latch := rfl
@[simp] theorem recordLoad_pipe (s : State) (a : Word) : (s.recordLoad a).pipe = s.pipe := rfl
@[simp] theorem recordLoad_mem (s : State) (a : Word) : (s.recordLoad a).mem = s.mem := rfl
@[simp] theorem recordLoad_params (s : State) (a : Word) : (s.recordLoad a).params = s.params := rfl
@[simp] theorem recordLoad_host (s : State) (a : Word) : (s.recordLoad a).host = s.host := rfl
@[simp] theorem recordLoad_hostReads (s : State) (a : Word) : (s.recordLoad a).hostReads = .data a (s.loadByte a) :: s.hostReads := rfl
@[simp] theorem recordLoad_idleSeen (s : State) (a : Word) : (s.recordLoad a).idleSeen = s.idleSeen := rfl
@[simp] theorem recordLoad_delay (s : State) (a : Word) : (s.recordLoad a).delay = s.delay := rfl
@[simp] theorem recordLoad_raced (s : State) (a : Word) : (s.recordLoad a).raced = s.raced := rfl
@[simp] theorem recordLoad_draws (s : State) (a : Word) : (s.recordLoad a).draws = s.draws + 1 := rfl

@[simp] theorem pollStatus_ctx (s : State) : s.pollStatus.ctx = s.ctx := rfl
@[simp] theorem pollStatus_addr (s : State) : s.pollStatus.addr = s.addr := rfl
@[simp] theorem pollStatus_len (s : State) : s.pollStatus.len = s.len := rfl
@[simp] theorem pollStatus_status (s : State) : s.pollStatus.status = s.status := rfl
@[simp] theorem pollStatus_code (s : State) : s.pollStatus.code = s.code := rfl
@[simp] theorem pollStatus_result (s : State) : s.pollStatus.result = s.result := rfl
@[simp] theorem pollStatus_latch (s : State) : s.pollStatus.latch = s.latch := rfl
@[simp] theorem pollStatus_pipe (s : State) : s.pollStatus.pipe = s.pipe := rfl
@[simp] theorem pollStatus_mem (s : State) : s.pollStatus.mem = s.mem := rfl
@[simp] theorem pollStatus_params (s : State) : s.pollStatus.params = s.params := rfl
@[simp] theorem pollStatus_host (s : State) : s.pollStatus.host = if s.status.busy then .wait :: s.host else s.host := rfl
@[simp] theorem pollStatus_hostReads (s : State) : s.pollStatus.hostReads = .reg .status (s.readReg .status) :: s.hostReads := rfl
@[simp] theorem pollStatus_idleSeen (s : State) : s.pollStatus.idleSeen = (s.idleSeen || !s.status.busy) := by
  simp [pollStatus, recordRead, showsIdle]
@[simp] theorem pollStatus_delay (s : State) : s.pollStatus.delay = s.delay := rfl
@[simp] theorem pollStatus_raced (s : State) : s.pollStatus.raced = s.raced := rfl
@[simp] theorem pollStatus_draws (s : State) : s.pollStatus.draws = s.draws := rfl

@[simp] theorem takeStmt_ctx (s : State) (rest : List HostStmt) : (s.takeStmt rest).ctx = s.ctx := rfl
@[simp] theorem takeStmt_addr (s : State) (rest : List HostStmt) : (s.takeStmt rest).addr = s.addr := rfl
@[simp] theorem takeStmt_len (s : State) (rest : List HostStmt) : (s.takeStmt rest).len = s.len := rfl
@[simp] theorem takeStmt_status (s : State) (rest : List HostStmt) : (s.takeStmt rest).status = s.status := rfl
@[simp] theorem takeStmt_code (s : State) (rest : List HostStmt) : (s.takeStmt rest).code = s.code := rfl
@[simp] theorem takeStmt_result (s : State) (rest : List HostStmt) : (s.takeStmt rest).result = s.result := rfl
@[simp] theorem takeStmt_latch (s : State) (rest : List HostStmt) : (s.takeStmt rest).latch = s.latch := rfl
@[simp] theorem takeStmt_pipe (s : State) (rest : List HostStmt) : (s.takeStmt rest).pipe = s.pipe := rfl
@[simp] theorem takeStmt_mem (s : State) (rest : List HostStmt) : (s.takeStmt rest).mem = s.mem := rfl
@[simp] theorem takeStmt_params (s : State) (rest : List HostStmt) : (s.takeStmt rest).params = s.params := rfl
@[simp] theorem takeStmt_host (s : State) (rest : List HostStmt) : (s.takeStmt rest).host = rest := rfl
@[simp] theorem takeStmt_hostReads (s : State) (rest : List HostStmt) : (s.takeStmt rest).hostReads = s.hostReads := rfl
@[simp] theorem takeStmt_idleSeen (s : State) (rest : List HostStmt) : (s.takeStmt rest).idleSeen = s.idleSeen := rfl
@[simp] theorem takeStmt_delay (s : State) (rest : List HostStmt) : (s.takeStmt rest).delay = s.delay - 1 := rfl
@[simp] theorem takeStmt_raced (s : State) (rest : List HostStmt) : (s.takeStmt rest).raced = s.raced := rfl
@[simp] theorem takeStmt_draws (s : State) (rest : List HostStmt) : (s.takeStmt rest).draws = s.draws := rfl

@[simp] theorem resetDevice_ctx (s : State) : s.resetDevice.ctx = List.replicate s.numCtx Context.atReset := rfl
@[simp] theorem resetDevice_addr (s : State) : s.resetDevice.addr = 0 := rfl
@[simp] theorem resetDevice_len (s : State) : s.resetDevice.len = 0 := rfl
@[simp] theorem resetDevice_status (s : State) : s.resetDevice.status = { busy := false, ovr := false } := rfl
@[simp] theorem resetDevice_code (s : State) : s.resetDevice.code = 0 := rfl
@[simp] theorem resetDevice_result (s : State) : s.resetDevice.result = 0 := rfl
@[simp] theorem resetDevice_latch (s : State) : s.resetDevice.latch = Latch.atReset := rfl
@[simp] theorem resetDevice_pipe (s : State) : s.resetDevice.pipe = Pipe.atReset := rfl
@[simp] theorem resetDevice_mem (s : State) : s.resetDevice.mem = s.mem := rfl
@[simp] theorem resetDevice_params (s : State) : s.resetDevice.params = s.params := rfl
@[simp] theorem resetDevice_host (s : State) : s.resetDevice.host = s.host := rfl
@[simp] theorem resetDevice_hostReads (s : State) : s.resetDevice.hostReads = s.hostReads := rfl
@[simp] theorem resetDevice_idleSeen (s : State) : s.resetDevice.idleSeen = s.idleSeen := rfl
@[simp] theorem resetDevice_delay (s : State) : s.resetDevice.delay = 0 := rfl
@[simp] theorem resetDevice_raced (s : State) : s.resetDevice.raced = [] := rfl
@[simp] theorem resetDevice_draws (s : State) : s.resetDevice.draws = s.draws + 1 := rfl

@[simp] theorem modifyCtx_addr (s : State) (h : Nat) (g : Context → Context) : (s.modifyCtx h g).addr = s.addr := by
  unfold modifyCtx; split <;> rfl
@[simp] theorem modifyCtx_len (s : State) (h : Nat) (g : Context → Context) : (s.modifyCtx h g).len = s.len := by
  unfold modifyCtx; split <;> rfl
@[simp] theorem modifyCtx_status (s : State) (h : Nat) (g : Context → Context) : (s.modifyCtx h g).status = s.status := by
  unfold modifyCtx; split <;> rfl
@[simp] theorem modifyCtx_code (s : State) (h : Nat) (g : Context → Context) : (s.modifyCtx h g).code = s.code := by
  unfold modifyCtx; split <;> rfl
@[simp] theorem modifyCtx_result (s : State) (h : Nat) (g : Context → Context) : (s.modifyCtx h g).result = s.result := by
  unfold modifyCtx; split <;> rfl
@[simp] theorem modifyCtx_latch (s : State) (h : Nat) (g : Context → Context) : (s.modifyCtx h g).latch = s.latch := by
  unfold modifyCtx; split <;> rfl
@[simp] theorem modifyCtx_pipe (s : State) (h : Nat) (g : Context → Context) : (s.modifyCtx h g).pipe = s.pipe := by
  unfold modifyCtx; split <;> rfl
@[simp] theorem modifyCtx_mem (s : State) (h : Nat) (g : Context → Context) : (s.modifyCtx h g).mem = s.mem := by
  unfold modifyCtx; split <;> rfl
@[simp] theorem modifyCtx_params (s : State) (h : Nat) (g : Context → Context) : (s.modifyCtx h g).params = s.params := by
  unfold modifyCtx; split <;> rfl
@[simp] theorem modifyCtx_host (s : State) (h : Nat) (g : Context → Context) : (s.modifyCtx h g).host = s.host := by
  unfold modifyCtx; split <;> rfl
@[simp] theorem modifyCtx_hostReads (s : State) (h : Nat) (g : Context → Context) : (s.modifyCtx h g).hostReads = s.hostReads := by
  unfold modifyCtx; split <;> rfl
@[simp] theorem modifyCtx_idleSeen (s : State) (h : Nat) (g : Context → Context) : (s.modifyCtx h g).idleSeen = s.idleSeen := by
  unfold modifyCtx; split <;> rfl
@[simp] theorem modifyCtx_delay (s : State) (h : Nat) (g : Context → Context) : (s.modifyCtx h g).delay = s.delay := by
  unfold modifyCtx; split <;> rfl
@[simp] theorem modifyCtx_raced (s : State) (h : Nat) (g : Context → Context) : (s.modifyCtx h g).raced = s.raced := by
  unfold modifyCtx; split <;> rfl
@[simp] theorem modifyCtx_draws (s : State) (h : Nat) (g : Context → Context) : (s.modifyCtx h g).draws = s.draws := by
  unfold modifyCtx; split <;> rfl

/-- `modifyCtx` changes at most entry `h - 1` of the context file. -/
theorem modifyCtx_ctx (s : State) {h : Nat} (hh : h ≠ 0) (g : Context → Context) :
    (s.modifyCtx h g).ctx = s.ctx.modify (h - 1) g := by
  simp [modifyCtx, hh]

@[simp] theorem modifyCtx_numCtx (s : State) (h : Nat) (g : Context → Context) :
    (s.modifyCtx h g).numCtx = s.numCtx := by
  unfold modifyCtx numCtx; split <;> simp

end Sys2Proof.Machine.State
end

