-- ==== Sys2Proof/Laws/Contexts.lean ====
section
/-! SUPPORT. The context file: which context a handle names, and what changing one context leaves alone. -/

namespace Sys2Proof.Machine.State

/-- A handle names a context when it is in `1 … NUM_CTX`. -/
theorem ctxAt_eq_some_iff {s : State} {h : Nat} {c : Context} :
    s.ctxAt h = some c ↔ h ≠ 0 ∧ s.ctx[h - 1]? = some c := by
  unfold ctxAt; split <;> simp_all

/-- The valid handles: not null, in range, live. -/
theorem liveCtx_eq_some_iff {s : State} {h : Nat} {c : Context} :
    s.liveCtx h = some c ↔ s.ctxAt h = some c ∧ c.live = true := by
  unfold liveCtx; simp [Option.filter_eq_some_iff]

/-- The handle check fails exactly when no live context has that handle. -/
theorem liveCtx_eq_none_iff {s : State} {h : Nat} :
    s.liveCtx h = none ↔ ∀ c, s.ctxAt h = some c → c.live = false := by
  unfold liveCtx; simp [Option.filter_eq_none_iff]

theorem ctxAt_congr {s t : State} (h : s.ctx = t.ctx) (k : Nat) : s.ctxAt k = t.ctxAt k := by
  unfold ctxAt; rw [h]

theorem ctxAt_modifyCtx_other (s : State) {h k : Nat} (g : Context → Context) (hk : k ≠ h) :
    (s.modifyCtx h g).ctxAt k = s.ctxAt k := by
  unfold ctxAt modifyCtx
  split_ifs with h1 h2
  · rfl
  · rfl
  · rw [List.getElem?_modify]
    have : h - 1 ≠ k - 1 := by omega
    simp [this]

theorem ctxAt_modifyCtx_same (s : State) (h : Nat) (g : Context → Context) :
    (s.modifyCtx h g).ctxAt h = (s.ctxAt h).map g := by
  unfold ctxAt modifyCtx
  split_ifs with h1
  · rfl
  · simp

/-- `firstFree` finds the lowest context that is not live. -/
theorem firstFree_eq_some_iff {s : State} {h : Nat} :
    s.firstFree = some h ↔
      ∃ i, h = i + 1 ∧ ∃ c, s.ctx[i]? = some c ∧ c.live = false ∧
        ∀ j, j < i → ∀ d, s.ctx[j]? = some d → d.live = true := by
  unfold firstFree
  simp only [Option.map_eq_some_iff, List.findIdx?_eq_some_iff_getElem]
  constructor
  · rintro ⟨i, ⟨hi, hl, hj⟩, rfl⟩
    refine ⟨i, rfl, s.ctx[i], by simp [hi], by simpa using hl, ?_⟩
    intro j hji d hd
    have hjl : j < s.ctx.length := by omega
    simp [List.getElem?_eq_getElem hjl] at hd
    subst hd
    simpa using hj j hji
  · rintro ⟨i, rfl, c, hc, hl, hj⟩
    obtain ⟨hi, hci⟩ := List.getElem?_eq_some_iff.mp hc
    refine ⟨i, ⟨hi, by simp [hci, hl], ?_⟩, rfl⟩
    intro j hji
    have hjl : j < s.ctx.length := by omega
    simpa using hj j hji _ (List.getElem?_eq_getElem hjl)

/-- `firstFree` finds nothing exactly when every context is live. -/
theorem firstFree_eq_none_iff {s : State} : s.firstFree = none ↔ ∀ c ∈ s.ctx, c.live = true := by
  unfold firstFree; simp [List.findIdx?_eq_none_iff]

/-- Changing an entry that is known is setting it. -/
theorem modify_eq_set {l : List Context} {i : Nat} {c : Context} (h : l[i]? = some c) (g : Context → Context) :
    l.modify i g = l.set i (g c) := by
  apply List.ext_getElem?
  intro j
  rw [List.getElem?_modify, List.getElem?_set]
  by_cases hj : i = j
  · subst hj
    simp only [h, if_true]
    rw [if_pos (List.getElem?_eq_some_iff.mp h).1]; rfl
  · simp [hj]

/-- Changes of two contexts commute. -/
theorem modifyCtx_comm (s : State) {h k : Nat} (hk : h ≠ k) (f g : Context → Context) :
    (s.modifyCtx h f).modifyCtx k g = (s.modifyCtx k g).modifyCtx h f := by
  unfold State.modifyCtx
  by_cases h0 : h = 0 <;> by_cases k0 : k = 0 <;> simp [h0, k0]
  apply List.ext_getElem?
  intro i
  simp only [List.getElem?_modify]
  have : h - 1 ≠ k - 1 := by omega
  by_cases h1 : k - 1 = i <;> by_cases h2 : h - 1 = i <;> simp [h1, h2]
  omega

theorem modifyCtx_endCommand (s : State) (h : Nat) (f : Context → Context) (c : Code) :
    (s.modifyCtx h f).endCommand c = (s.endCommand c).modifyCtx h f := by
  unfold State.modifyCtx; split <;> rfl

theorem modifyCtx_setResult (s : State) (h : Nat) (f : Context → Context) (v : Word) :
    (s.modifyCtx h f).setResult v = (s.setResult v).modifyCtx h f := by
  unfold State.modifyCtx; split <;> rfl

end Sys2Proof.Machine.State
end

