-- ==== Sys2Proof/Laws/Encode.lean ====
section
/-! SUPPORT. The fields of a command word. -/

namespace Sys2Proof

@[simp] theorem handleField_lt (w : Word) : handleField w < 256 := by
  unfold handleField; exact (w.extractLsb' 8 8).isLt

@[simp] theorem wellFormed_init : wellFormed .init = true := rfl
@[simp] theorem wellFormed_update (h : Nat) : wellFormed (.update h) = handleFits h := rfl
@[simp] theorem wellFormed_final (h : Nat) : wellFormed (.final h) = handleFits h := rfl
@[simp] theorem wellFormed_free (h : Nat) : wellFormed (.free h) = handleFits h := rfl
@[simp] theorem handleFits_iff (h : Nat) : handleFits h = true ↔ h < 256 := by simp [handleFits]

/-- The fields in terms of the word's number. -/
theorem opField_eq (w : Word) : opField w = w.toNat % 16 := by
  simp [opField]

theorem resLoField_eq (w : Word) : resLoField w = w.toNat / 16 % 16 := by
  simp [resLoField, Nat.shiftRight_eq_div_pow]

theorem handleField_eq (w : Word) : handleField w = w.toNat / 256 % 256 := by
  simp [handleField, Nat.shiftRight_eq_div_pow]

theorem resHiField_eq (w : Word) : resHiField w = w.toNat / 65536 := by
  have := w.isLt
  simp [resHiField, Nat.shiftRight_eq_div_pow]
  omega

/-- The number of a command word, for a handle and an opcode that fit their fields. -/
theorem commandWord_toNat {h : Nat} {op : Word} (hh : h < 256) (ho : op.toNat < 16) :
    (commandWord h op).toNat = h * 256 + op.toNat := by
  unfold commandWord
  have e : (BitVec.ofNat 32 h <<< 8).toNat = h * 256 := by
    simp [Nat.shiftLeft_eq]; omega
  rw [BitVec.toNat_or, e]
  have := Nat.shiftLeft_add_eq_or_of_lt (a := h) (b := op.toNat) (i := 8) (by omega)
  rw [Nat.shiftLeft_eq] at this
  exact this.symm

/-- The mask of the opcode map drops the HANDLE field and keeps every other bit. -/
theorem and_rowMask (w : Word) : w &&& rowMask = w.extractLsb' 16 16 ++ (0#8 ++ w.extractLsb' 0 8) := by
  have hm : ∀ j : Fin 32, rowMask.getLsbD j = (decide (j.val < 8) || decide (16 ≤ j.val)) := by decide
  refine BitVec.eq_of_getLsbD_eq fun j hj => ?_
  have hmj := hm ⟨j, hj⟩
  simp only at hmj
  have hl : (w &&& rowMask).getLsbD j = (w.getLsbD j && (decide (j < 8) || decide (16 ≤ j))) := by
    rw [BitVec.getLsbD_and, hmj]
  have hr : (w.extractLsb' 16 16 ++ (0#8 ++ w.extractLsb' 0 8)).getLsbD j =
      (w.getLsbD j && (decide (j < 8) || decide (16 ≤ j))) := by
    rw [BitVec.getLsbD_append, BitVec.getLsbD_append]
    by_cases h8 : j < 8
    · simp [h8, show j < 16 by omega]
    · by_cases h16 : j < 16
      · simp [h8, h16]
      · simp [h8, h16, show 16 + (j - 16) = j by omega, show j - 16 < 16 by omega, show 16 ≤ j by omega]
  exact hl.trans hr.symm

/-- The same over numbers. -/
theorem and_rowMask_toNat (w : Word) : (w &&& rowMask).toNat = w.toNat / 65536 * 65536 + w.toNat % 256 := by
  have hw := w.isLt
  rw [and_rowMask, BitVec.toNat_append, BitVec.toNat_append]
  have := Nat.shiftLeft_add_eq_or_of_lt (a := (w.extractLsb' 16 16).toNat) (b := w.toNat % 256) (i := 16) (by omega)
  simp [Nat.shiftLeft_eq, Nat.shiftRight_eq_div_pow] at this ⊢
  omega

end Sys2Proof
end

