-- ==== Sys2Proof/Laws/Pipeline.lean ====
section
/-! SUPPORT. The micro-steps of the pipeline: what each does, and that carrying them out changes the working registers
only. -/

namespace Sys2Proof.Machine

@[simp] theorem Pipe.acc_w1 (p : Pipe) (b : Byte) : (p.acc b).w1 = p.w1 + b.setWidth 32 := rfl
@[simp] theorem Pipe.acc_w2 (p : Pipe) (b : Byte) : (p.acc b).w2 = p.w2 + (p.w1 + b.setWidth 32) := rfl
@[simp] theorem Pipe.acc_ptr (p : Pipe) (b : Byte) : (p.acc b).ptr = p.ptr + 1 := rfl
@[simp] theorem Pipe.acc_rem (p : Pipe) (b : Byte) : (p.acc b).rem = p.rem - 1 := rfl
@[simp] theorem Pipe.acc_run (p : Pipe) (b : Byte) : (p.acc b).run = p.run + 1 := rfl
@[simp] theorem Pipe.red_ptr (p : Pipe) : p.red.ptr = p.ptr := rfl
@[simp] theorem Pipe.red_rem (p : Pipe) : p.red.rem = p.rem := rfl
@[simp] theorem Pipe.red_run (p : Pipe) : p.red.run = 0 := rfl

/-- RED leaves the remainder of W1. -/
@[simp] theorem Pipe.red_w1_toNat (p : Pipe) : p.red.w1.toNat = p.w1.toNat % 65535 := by
  have := Nat.mod_lt p.w1.toNat (y := 65535) (by decide)
  simp [Pipe.red, red_eq]; omega

/-- RED leaves the remainder of W2. -/
@[simp] theorem Pipe.red_w2_toNat (p : Pipe) : p.red.w2.toNat = p.w2.toNat % 65535 := by
  have := Nat.mod_lt p.w2.toNat (y := 65535) (by decide)
  simp [Pipe.red, red_eq]; omega

/-- ACC adds the byte to W1 exactly, when the sum fits. -/
theorem Pipe.acc_w1_toNat {p : Pipe} {b : Byte} (h : p.w1.toNat + b.toNat < 2 ^ 32) :
    (p.acc b).w1.toNat = p.w1.toNat + b.toNat := by
  have := b.isLt
  simp [BitVec.toNat_add]; omega

/-- ACC adds the new W1 to W2 exactly, when the sum fits. -/
theorem Pipe.acc_w2_toNat {p : Pipe} {b : Byte} (h : p.w2.toNat + (p.w1.toNat + b.toNat) < 2 ^ 32) :
    (p.acc b).w2.toNat = p.w2.toNat + (p.w1.toNat + b.toNat) := by
  have := b.isLt
  simp [BitVec.toNat_add]; omega

namespace State

/-- What ACC can do: the byte at PTR is unreadable, or it is folded into the working registers. -/
theorem acc_cases (s : State) :
    (s.readable s.pipe.ptr = false ∧ s.acc = none) ∨
      (s.readable s.pipe.ptr = true ∧ s.acc = some { s with pipe := s.pipe.acc (s.byteAt s.pipe.ptr) }) := by
  unfold acc memRead
  cases s.readable s.pipe.ptr <;> simp

/-- An ACC that reads changes the working registers only. -/
theorem acc_frame {s t : State} (h : s.acc = some t) : t = { s with pipe := t.pipe } := by
  rcases acc_cases s with ⟨_, e⟩ | ⟨_, e⟩ <;> rw [e] at h <;> simp_all
  subst h; rfl

/-- What reading a run of bytes can do: one of them is unreadable, or all are returned in address order. -/
theorem readRun_cases (s : State) (k : Nat) : ∀ a : Word,
    ((∃ i, i < k ∧ s.readable (a + BitVec.ofNat 32 i) = false) ∧ s.readRun k a = none) ∨
      ((∀ i, i < k → s.readable (a + BitVec.ofNat 32 i) = true) ∧
        s.readRun k a = some ((List.range k).map fun i => s.byteAt (a + BitVec.ofNat 32 i))) := by
  have next : ∀ (a : Word) (i : Nat), a + BitVec.ofNat 32 (i + 1) = a + 1 + BitVec.ofNat 32 i := by
    intro a i
    rw [Nat.add_comm, BitVec.ofNat_add, ← BitVec.add_assoc]; rfl
  induction k with
  | zero => intro a; exact .inr ⟨fun i h => absurd h (by omega), rfl⟩
  | succ k ih =>
    intro a
    cases hr : s.readable a with
    | false => exact .inl ⟨⟨0, by omega, by simpa using hr⟩, by simp [readRun, memRead, hr]⟩
    | true =>
      rcases ih (a + 1) with ⟨⟨i, hi, hf⟩, e⟩ | ⟨hall, e⟩
      · exact .inl ⟨⟨i + 1, by omega, by rw [next]; exact hf⟩, by simp only [readRun, memRead, hr, if_true, e, Option.map_none]⟩
      · refine .inr ⟨fun i hi => ?_, ?_⟩
        · cases i with
          | zero => simpa using hr
          | succ i => rw [next]; exact hall i (by omega)
        · simp only [readRun, memRead, hr, if_true, e, Option.map_some, List.range_succ_eq_map, List.map_cons, List.map_map]
          simp only [Function.comp_def, next]
          simp

/-- What a beat can do: one of its bytes is unreadable, or they are folded into the working registers. -/
theorem beat_cases (s : State) (k : Nat) :
    ((∃ i, i < k ∧ s.readable (s.pipe.ptr + BitVec.ofNat 32 i) = false) ∧ s.beat k = none) ∨
      ((∀ i, i < k → s.readable (s.pipe.ptr + BitVec.ofNat 32 i) = true) ∧
        s.beat k = some { s with
          pipe := s.pipe.beat ((List.range k).map fun i => s.byteAt (s.pipe.ptr + BitVec.ofNat 32 i)) }) := by
  rcases readRun_cases s k s.pipe.ptr with ⟨h, e⟩ | ⟨h, e⟩
  · exact .inl ⟨h, by simp [beat, e]⟩
  · exact .inr ⟨h, by simp [beat, e]⟩

/-- A step of a schedule that reads changes the working registers only. -/
theorem run_frame {m : Micro} {s t : State} (h : m.run s = some t) : t = { s with pipe := t.pipe } := by
  cases m with
  | acc => exact acc_frame h
  | red => simp only [Micro.run, Option.some.injEq] at h; subst h; rfl
  | beat k =>
    simp only [Micro.run] at h
    rcases beat_cases s k with ⟨_, e⟩ | ⟨_, e⟩ <;> rw [e] at h
    · simp at h
    · simp only [Option.some.injEq] at h; subst h; rfl

/-- A schedule that starts with a step: the step was carried out, and the rest follows. -/
theorem runMicros_cons {m : Micro} {ms : List Micro} {s t : State} :
    runMicros (m :: ms) s = some t ↔ ∃ u, m.run s = some u ∧ runMicros ms u = some t := by
  simp only [runMicros]
  cases m.run s <;> simp

/-- The steps of a schedule change the working registers only. -/
theorem runMicros_frame {ms : List Micro} : ∀ {s t : State}, runMicros ms s = some t → t = { s with pipe := t.pipe } := by
  induction ms with
  | nil => intro s t h; simp only [runMicros, Option.some.injEq] at h; subst h; rfl
  | cons m ms ih =>
    intro s t h
    obtain ⟨u, hu, ht⟩ := runMicros_cons.mp h
    rw [ih ht, run_frame hu]

/-- The byte at an address does not depend on the working registers. -/
@[simp] theorem byteAt_pipe (s : State) (p : Pipe) (a : Word) : ({ s with pipe := p } : State).byteAt a = s.byteAt a := rfl
@[simp] theorem readable_pipe (s : State) (p : Pipe) (a : Word) :
    ({ s with pipe := p } : State).readable a = s.readable a := rfl

/-- The bytes of a run do not depend on the working registers. -/
theorem readRun_pipe (s : State) (p : Pipe) (k : Nat) :
    ∀ a, ({ s with pipe := p } : State).readRun k a = s.readRun k a := by
  induction k with
  | zero => intro a; rfl
  | succ k ih => intro a; simp only [readRun, ih]; rfl

/-- COMMIT writes the two sums of one context and completes the command. -/
theorem commit_eq (s : State) (h : Nat) :
    s.commit h = (s.modifyCtx h fun c =>
      { c with sum1 := s.pipe.w1.setWidth 16, sum2 := s.pipe.w2.setWidth 16 }).endCommand .ok := rfl

end State

@[simp] theorem countsAfter_nil (run rem : Nat) : countsAfter [] run rem = some (run, rem) := rfl

@[simp] theorem permitted_iff (n : Nat) (ms : List Micro) : permitted n ms = true ↔ countsAfter ms 0 n = some (0, 0) := by
  simp [permitted]

/-- A schedule that starts with a step: the step was enabled, and the rest follows. -/
theorem countsAfter_cons {m : Micro} {ms : List Micro} {run rem : Nat} {x : Nat × Nat} :
    countsAfter (m :: ms) run rem = some x ↔ ∃ c, m.counts run rem = some c ∧ countsAfter ms c.1 c.2 = some x := by
  simp only [countsAfter]
  cases m.counts run rem <;> simp

/-- A schedule that starts with ACC: ACC was enabled, and the rest follows. -/
theorem countsAfter_acc {ms : List Micro} {run rem : Nat} {x : Nat × Nat}
    (h : countsAfter (.acc :: ms) run rem = some x) :
    0 < rem ∧ run < 5552 ∧ countsAfter ms (run + 1) (rem - 1) = some x := by
  obtain ⟨c, hc, hx⟩ := countsAfter_cons.mp h
  simp only [Micro.counts, Option.ite_none_right_eq_some, Option.some.injEq] at hc
  obtain ⟨hh, rfl⟩ := hc
  exact ⟨hh.1, hh.2, hx⟩

/-- A schedule that starts with RED: RED was enabled, and the rest follows. -/
theorem countsAfter_red {ms : List Micro} {run rem : Nat} {x : Nat × Nat}
    (h : countsAfter (.red :: ms) run rem = some x) : 1 ≤ run ∧ countsAfter ms 0 rem = some x := by
  obtain ⟨c, hc, hx⟩ := countsAfter_cons.mp h
  simp only [Micro.counts, Option.ite_none_right_eq_some, Option.some.injEq] at hc
  obtain ⟨hh, rfl⟩ := hc
  exact ⟨hh, hx⟩

/-- A schedule that starts with a beat: the beat was enabled, and the rest follows. -/
theorem countsAfter_beat {ms : List Micro} {k run rem : Nat} {x : Nat × Nat}
    (h : countsAfter (.beat k :: ms) run rem = some x) :
    1 ≤ k ∧ k ≤ rem ∧ run + k ≤ 5552 ∧ countsAfter ms (run + k) (rem - k) = some x := by
  obtain ⟨c, hc, hx⟩ := countsAfter_cons.mp h
  simp only [Micro.counts, Option.ite_none_right_eq_some, Option.some.injEq] at hc
  obtain ⟨hh, rfl⟩ := hc
  exact ⟨hh.1, hh.2.1, hh.2.2, hx⟩

end Sys2Proof.Machine
end

