-- ==== Sys2Proof/Laws/Exec.lean ====
section
/-! SUPPORT. What each meaning can do, once per command: later proofs cite these and never unfold a meaning. -/

namespace Sys2Proof.Machine

/-- INIT fails with every context live, or seeds the lowest one that is not. -/
theorem execInit_cases (s : State) :
    (s.firstFree = none ∧ execInit s = .next ((s.setResult 0).endCommand .allocationFailure)) ∨
      ∃ h, s.firstFree = some h ∧
        execInit s = .next (((s.modifyCtx h fun _ => seededContext).setResult (BitVec.ofNat 32 h)).endCommand .ok) := by
  unfold execInit
  cases hf : s.firstFree with
  | none => exact .inl ⟨rfl, rfl⟩
  | some h => exact .inr ⟨h, rfl, rfl⟩

/-- UPDATE is turned away by a check, does nothing, meets an unreadable byte, or commits. -/
theorem execUpdate_cases (h : Nat) (s : State) :
    ((s.liveCtx h = none ∨ s.nullPointer = true ∨ s.bufferWraps = true) ∧
        execUpdate h s = .next (s.endCommand .invalidArgument)) ∨
      ∃ c, s.liveCtx h = some c ∧ s.nullPointer = false ∧ s.bufferWraps = false ∧
        ((s.bufferLen = 0 ∧ execUpdate h s = .next (s.endCommand .ok)) ∨
          (s.bufferLen ≠ 0 ∧ runMicros (plan s.bufferLen s.params.schedule 0) (s.load c) = none ∧
            execUpdate h s = .next (s.endCommand .busError)) ∨
          ∃ t, s.bufferLen ≠ 0 ∧ runMicros (plan s.bufferLen s.params.schedule 0) (s.load c) = some t ∧
            execUpdate h s = .next (t.commit h)) := by
  unfold execUpdate
  cases hl : s.liveCtx h with
  | none => exact .inl ⟨.inl rfl, rfl⟩
  | some c =>
    cases hn : s.nullPointer with
    | true => exact .inl ⟨.inr (.inl rfl), by simp⟩
    | false =>
      cases hw : s.bufferWraps with
      | true => exact .inl ⟨.inr (.inr rfl), by simp⟩
      | false =>
        refine .inr ⟨c, rfl, rfl, rfl, ?_⟩
        by_cases h0 : s.bufferLen = 0
        · exact .inl ⟨h0, by simp [h0]⟩
        · cases hr : runMicros (plan s.bufferLen s.params.schedule 0) (s.load c) with
          | none => exact .inr (.inl ⟨h0, rfl, by simp [h0, hr]⟩)
          | some t => exact .inr (.inr ⟨t, h0, rfl, by simp [h0, hr]⟩)

/-- FINAL rejects the handle or returns the checksum of its context. -/
theorem execFinal_cases (h : Nat) (s : State) :
    (s.liveCtx h = none ∧ execFinal h s = .next (s.endCommand .invalidArgument)) ∨
      ∃ c, s.liveCtx h = some c ∧ execFinal h s = .next ((s.setResult (ck c.sum1 c.sum2)).endCommand .ok) := by
  unfold execFinal
  cases hl : s.liveCtx h with
  | none => exact .inl ⟨rfl, rfl⟩
  | some c => exact .inr ⟨c, rfl, rfl⟩

/-- FREE releases a live context or does nothing. -/
theorem execFree_cases (h : Nat) (s : State) :
    (s.liveCtx h = none ∧ execFree h s = .next (s.endCommand .ok)) ∨
      ∃ c, s.liveCtx h = some c ∧
        execFree h s = .next ((s.modifyCtx h fun c => { c with live := false }).endCommand .ok) := by
  unfold execFree
  cases hl : s.liveCtx h with
  | none => exact .inl ⟨rfl, rfl⟩
  | some c => exact .inr ⟨c, rfl, rfl⟩

/-- Every command completes: no meaning stops. -/
theorem exec_total (i : Instr) (s : State) : ∃ t, exec i s = .next t := by
  cases i with
  | init => rcases execInit_cases s with ⟨_, e⟩ | ⟨_, _, e⟩ <;> exact ⟨_, e⟩
  | update h =>
    rcases execUpdate_cases h s with ⟨_, e⟩ | ⟨_, _, _, _, ⟨_, e⟩ | ⟨_, _, e⟩ | ⟨_, _, _, e⟩⟩ <;> exact ⟨_, e⟩
  | final h => rcases execFinal_cases h s with ⟨_, e⟩ | ⟨_, _, e⟩ <;> exact ⟨_, e⟩
  | free h => rcases execFree_cases h s with ⟨_, e⟩ | ⟨_, _, e⟩ <;> exact ⟨_, e⟩

/-- Everything a command can do: end with a code and no other effect, or fail INIT, seed, commit, return a checksum or
release. -/
theorem exec_cases {i : Instr} {s t : State} (h : exec i s = .next t) :
    (∃ c, t = s.endCommand c) ∨ (i = .init ∧ t = (s.setResult 0).endCommand .allocationFailure) ∨
      (∃ k, i = .init ∧ s.firstFree = some k ∧
        t = ((s.modifyCtx k fun _ => seededContext).setResult (BitVec.ofNat 32 k)).endCommand .ok) ∨
      (∃ k c u, i = .update k ∧ s.liveCtx k = some c ∧ s.bufferLen ≠ 0 ∧
        runMicros (plan s.bufferLen s.params.schedule 0) (s.load c) = some u ∧ t = u.commit k) ∨
      (∃ k c, i = .final k ∧ s.liveCtx k = some c ∧ t = (s.setResult (ck c.sum1 c.sum2)).endCommand .ok) ∨
      ∃ k c, i = .free k ∧ s.liveCtx k = some c ∧ t = (s.modifyCtx k fun c => { c with live := false }).endCommand .ok := by
  cases i with
  | init =>
    have h' : execInit s = .next t := h
    rcases execInit_cases s with ⟨_, e⟩ | ⟨k, hk, e⟩ <;> rw [e] at h' <;> simp at h'
    · exact .inr (.inl ⟨rfl, h'.symm⟩)
    · exact .inr (.inr (.inl ⟨k, rfl, hk, h'.symm⟩))
  | update k =>
    have h' : execUpdate k s = .next t := h
    rcases execUpdate_cases k s with ⟨_, e⟩ | ⟨c, hc, _, _, ⟨_, e⟩ | ⟨_, _, e⟩ | ⟨u, h0, hu, e⟩⟩ <;>
      rw [e] at h' <;> simp at h'
    · exact .inl ⟨_, h'.symm⟩
    · exact .inl ⟨_, h'.symm⟩
    · exact .inl ⟨_, h'.symm⟩
    · exact .inr (.inr (.inr (.inl ⟨k, c, u, rfl, hc, h0, hu, h'.symm⟩)))
  | final k =>
    have h' : execFinal k s = .next t := h
    rcases execFinal_cases k s with ⟨_, e⟩ | ⟨c, hc, e⟩ <;> rw [e] at h' <;> simp at h'
    · exact .inl ⟨_, h'.symm⟩
    · exact .inr (.inr (.inr (.inr (.inl ⟨k, c, rfl, hc, h'.symm⟩))))
  | free k =>
    have h' : execFree k s = .next t := h
    rcases execFree_cases k s with ⟨_, e⟩ | ⟨c, hc, e⟩ <;> rw [e] at h' <;> simp at h'
    · exact .inl ⟨_, h'.symm⟩
    · exact .inr (.inr (.inr (.inr (.inr ⟨k, c, rfl, hc, h'.symm⟩))))

end Sys2Proof.Machine
end

