-- ==== Sys2Proof/Laws/Memory.lean ====
section
/-! SUPPORT. Data memory: a read after a write, and the canonical form is kept. -/

namespace Sys2Proof.Machine.Memory

@[simp] theorem read_nil (a : Nat) : Memory.read [] a = Memory.unlisted := rfl

/-- A well-formed tail starting at `lo` lists nothing below `lo`. -/
theorem read_below {m : Memory} : ∀ {lo a : Nat}, Memory.wfFrom lo m = true → a < lo → Memory.read m a = Memory.unlisted := by
  induction m with
  | nil => intros; rfl
  | cons c m ih =>
    intro lo a h ha
    simp only [Memory.wfFrom, Bool.and_eq_true, decide_eq_true_eq] at h
    have hne : c.1 ≠ a := by omega
    simp only [Memory.read, if_neg hne]
    exact ih h.2 (by omega)

/-- The canonical form does not depend on where a lower bound is taken. -/
theorem wfFrom_mono {m : Memory} {lo lo' : Nat} (h : Memory.wfFrom lo m = true) (hl : lo' ≤ lo) :
    Memory.wfFrom lo' m = true := by
  cases m with
  | nil => rfl
  | cons c m =>
    simp only [Memory.wfFrom, Bool.and_eq_true, decide_eq_true_eq] at h ⊢
    exact ⟨⟨⟨by omega, h.1.1.2⟩, h.1.2⟩, h.2⟩

/-- Putting a byte below a well-formed tail. -/
theorem wfFrom_put {m : Memory} {lo a : Nat} {v : Byte} (h : Memory.wfFrom (a + 1) m = true) (hl : lo ≤ a)
    (ha : a < Config.addressCount) : Memory.wfFrom lo (Memory.put a v m) = true := by
  unfold Memory.put
  split
  · exact wfFrom_mono h (by omega)
  · simp_all [Memory.wfFrom]

/-- Reading after putting a byte below a well-formed tail. -/
theorem read_put {m : Memory} {a b : Nat} {v : Byte} (h : Memory.wfFrom (a + 1) m = true) :
    Memory.read (Memory.put a v m) b = if b = a then v else Memory.read m b := by
  unfold Memory.put
  by_cases hv : v = Memory.unlisted
  · rw [if_pos hv]
    split
    · subst_vars; exact read_below h (Nat.lt_succ_self _)
    · rfl
  · simp only [if_neg hv, Memory.read]
    split_ifs <;> first | rfl | omega

theorem wfFrom_write {m : Memory} {v : Byte} {a : Nat} (ha : a < Config.addressCount) :
    ∀ {lo : Nat}, Memory.wfFrom lo m = true → lo ≤ a → Memory.wfFrom lo (Memory.write m a v) = true := by
  induction m with
  | nil => intro lo _ hl; exact wfFrom_put rfl hl ha
  | cons c m ih =>
    intro lo h hl
    have h' := h
    simp only [Memory.wfFrom, Bool.and_eq_true, decide_eq_true_eq] at h
    unfold Memory.write
    split
    · refine wfFrom_put ?_ hl ha
      simp only [Memory.wfFrom, Bool.and_eq_true, decide_eq_true_eq]
      exact ⟨⟨⟨by omega, h.1.1.2⟩, h.1.2⟩, h.2⟩
    · split
      · subst_vars; exact wfFrom_put h.2 hl ha
      · simp only [Memory.wfFrom, Bool.and_eq_true, decide_eq_true_eq]
        exact ⟨h.1, ih h.2 (by omega)⟩

/-- A write keeps the canonical form. -/
theorem wf_write {m : Memory} {a : Nat} {v : Byte} (h : Memory.wf m = true) (ha : a < Config.addressCount) :
    Memory.wf (Memory.write m a v) = true := wfFrom_write ha h (Nat.zero_le a)

theorem read_write_from {m : Memory} {a b : Nat} {v : Byte} :
    ∀ {lo : Nat}, Memory.wfFrom lo m = true →
      Memory.read (Memory.write m a v) b = if b = a then v else Memory.read m b := by
  induction m with
  | nil => intro lo _; exact read_put rfl
  | cons c m ih =>
    intro lo h
    simp only [Memory.wfFrom, Bool.and_eq_true, decide_eq_true_eq] at h
    unfold Memory.write
    split
    · refine read_put ?_
      simp only [Memory.wfFrom, Bool.and_eq_true, decide_eq_true_eq]
      exact ⟨⟨⟨by omega, h.1.1.2⟩, h.1.2⟩, h.2⟩
    · split
      · subst_vars
        rw [read_put h.2]
        split
        · rfl
        · rename_i hne; simp [Memory.read, Ne.symm hne]
      · simp only [Memory.read]
        rw [ih h.2]
        split_ifs <;> first | rfl | omega

/-- A read after a write: the byte written at its address, the old byte elsewhere. -/
theorem read_write {m : Memory} (h : Memory.wf m = true) (a b : Nat) (v : Byte) :
    Memory.read (Memory.write m a v) b = if b = a then v else Memory.read m b := read_write_from h

end Sys2Proof.Machine.Memory
end

