-- ==== Sys2Proof/Laws/Invariant.lean ====
section
/-! SUPPORT. The invariant of the machine as a conjunction, and the pieces that hold of what a command leaves. -/

namespace Sys2Proof.Machine

/-- The invariant, clause by clause. -/
theorem machineInv_iff (s : State) :
    MachineInv s = true ↔
      1 ≤ s.numCtx ∧ s.numCtx ≤ 255 ∧ s.params.regBase % 32 = 0 ∧ (∀ c ∈ s.ctx, c.sumsLegal = true) ∧
        codeLegal s.code = true ∧ s.pipe.run.toNat ≤ 5552 ∧
        (s.status.busy = true ∨ (s.raced = [] ∧ s.delay = 0)) ∧ Memory.wf s.mem = true ∧
        ¬(s.idleSeen = true ∧ s.status.busy = true) := by
  simp only [MachineInv, and_assoc, Bool.and_eq_true, Bool.or_eq_true, decide_eq_true_eq, beq_iff_eq, List.all_eq_true,
    List.isEmpty_iff, Bool.not_eq_true', ← Bool.not_eq_true]
  rfl

/-- Between commands RUN is still at most N. -/
theorem idlePipe_run_le (n : Nat) : (idlePipe n).run.toNat ≤ 5552 := by
  simp [idlePipe, Config.batchBound]; omega

/-- Every status code is one. -/
theorem codeLegal_word (c : Code) : codeLegal c.word = true := by cases c <;> decide

end Sys2Proof.Machine
end

