-- ==== Sys2Proof/Laws/PerInstr.lean ====
section
/-! SUPPORT. Statements made once per command: its encoding lies in its own row of the opcode map (30_encoding.md R80). -/

namespace Sys2Proof.Laws.RowMatch

/-- The encoding of a well-formed command agrees with the match and mask of its row, and bits 15:8 hold its handle. -/
def Statement (i : Instr) : Prop :=
  WellFormed i → encode i &&& rowMask = opcodeOf i ∧ (encode i).toNat = handleOf i * 256 + (opcodeOf i).toNat

theorem of_handle {h : Nat} {op : Word} (hh : h < 256) (ho : op.toNat < 16) :
    commandWord h op &&& rowMask = op ∧ (commandWord h op).toNat = h * 256 + op.toNat := by
  have hc := commandWord_toNat hh ho
  refine ⟨?_, hc⟩
  apply BitVec.eq_of_toNat_eq
  rw [and_rowMask_toNat, hc]
  omega

theorem init : Statement .init := fun _ => by decide
theorem update (h : Nat) : Statement (.update h) := fun w => of_handle (op := 2) ((handleFits_iff h).mp w) (by decide)
theorem final (h : Nat) : Statement (.final h) := fun w => of_handle (op := 3) ((handleFits_iff h).mp w) (by decide)
theorem free (h : Nat) : Statement (.free h) := fun w => of_handle (op := 4) ((handleFits_iff h).mp w) (by decide)

end Sys2Proof.Laws.RowMatch
end

