-- ==== Sys2Proof/Laws/Step.lean ====
section
/-! SUPPORT. What a step can be: a move of the engine or of the host. -/

namespace Sys2Proof.Machine

theorem step_engine {s : State} (h : s.engineTurn = true) : step s = engineMove s := by simp [step, h]

theorem step_host {s : State} (h : s.engineTurn = false) : step s = hostTurn s := by simp [step, h]

theorem engineMove_instr {s : State} {i : Instr} (h : s.fetch = .instr i) : engineMove s = exec i s := by
  simp [engineMove, h]

theorem engineMove_illegal {s : State} {why : Illegal} (h : s.fetch = .illegal why) :
    engineMove s = .next (s.endCommand .illegalCommand) := by
  simp [engineMove, h, execIllegal]

@[simp] theorem engineTurn_iff (s : State) :
    s.engineTurn = true ↔ s.status.busy = true ∧ (s.delay = 0 ∨ s.host = []) := by
  simp [State.engineTurn]

/-- The engine does not move while the machine is idle. -/
theorem engineTurn_idle {s : State} (h : s.status.busy = false) : s.engineTurn = false := by
  simp [State.engineTurn, h]

theorem hostTurn_cons {s : State} {st : HostStmt} {rest : List HostStmt} (h : s.host = st :: rest) :
    hostTurn s = hostMove st (s.takeStmt rest) := by
  simp [hostTurn, h]

theorem hostTurn_nil {s : State} (h : s.host = []) : hostTurn s = .next s := by simp [hostTurn, h]

/-- The word at a register's offset of the window is that register. -/
theorem decodeAccess_reg (base : Nat) (r : HostReg) : decodeAccess base (base + r.offset) .word = .reg r := by
  cases r <;> simp [decodeAccess, windowBytes, Size.bytes, HostReg.offset, regAtOffset] <;> omega

/-- Every step is an engine move, idling, or a host statement. -/
theorem step_cases (s : State) :
    (s.engineTurn = true ∧ step s = engineMove s) ∨
      (s.engineTurn = false ∧ s.host = [] ∧ step s = .next s) ∨
      ∃ st rest, s.engineTurn = false ∧ s.host = st :: rest ∧ step s = hostMove st (s.takeStmt rest) := by
  cases he : s.engineTurn with
  | true => exact .inl ⟨rfl, step_engine he⟩
  | false =>
    cases hh : s.host with
    | nil => exact .inr (.inl ⟨rfl, rfl, by rw [step_host he, hostTurn_nil hh]⟩)
    | cons st rest => exact .inr (.inr ⟨st, rest, rfl, rfl, by rw [step_host he, hostTurn_cons hh]⟩)

/-- The next states a host statement can lead to. -/
theorem hostMove_cases {st : HostStmt} {s t : State} (h : hostMove st s = .next t) :
    t = s ∨ (∃ a z v r, st = .write a z v ∧ decodeAccess s.params.regBase a z = .reg r ∧ t = s.writeReg r v) ∨
      (∃ a z r, st = .read a z ∧ decodeAccess s.params.regBase a z = .reg r ∧ t = s.recordRead r) ∨
      (st = .wait ∧ t = s.pollStatus) ∨ (∃ a v, st = .store a v ∧ t = s.hostStore a v) ∨
      (∃ a, st = .load a ∧ t = s.recordLoad a) ∨ (st = .reset ∧ t = s.resetDevice) := by
  cases st with
  | write a z v =>
    simp only [hostMove] at h
    split at h
    · simp_all
    · simp at h
    · rename_i r hr
      exact .inr (.inl ⟨a, z, v, r, rfl, hr, by simpa using h.symm⟩)
  | read a z =>
    simp only [hostMove] at h
    split at h
    · simp_all
    · simp at h
    · rename_i r hr
      exact .inr (.inr (.inl ⟨a, z, r, rfl, hr, by simpa using h.symm⟩))
  | wait => exact .inr (.inr (.inr (.inl ⟨rfl, by simpa [hostMove] using h.symm⟩)))
  | store a v => exact .inr (.inr (.inr (.inr (.inl ⟨a, v, rfl, by simpa [hostMove] using h.symm⟩))))
  | load a => exact .inr (.inr (.inr (.inr (.inr (.inl ⟨a, rfl, by simpa [hostMove] using h.symm⟩)))))
  | reset => exact .inr (.inr (.inr (.inr (.inr (.inr ⟨rfl, by simpa [hostMove] using h.symm⟩)))))

/-- An access that reaches a register is a word access at its offset. -/
theorem decodeAccess_eq_reg {base a : Nat} {z : Size} {r : HostReg} (h : decodeAccess base a z = .reg r) :
    z = .word ∧ a = base + r.offset := by
  unfold decodeAccess at h
  split_ifs at h with h1 h2
  refine ⟨h2.1, ?_⟩
  simp only [Access.reg.injEq] at h
  subst h
  unfold windowBytes at h1
  unfold regAtOffset
  split_ifs <;> simp only [HostReg.offset] <;> omega

/-- An access that reaches CMD is a word access at REG_BASE. -/
theorem decodeAccess_cmd {base a : Nat} {z : Size} (h : decodeAccess base a z = .reg .cmd) : z = .word ∧ a = base :=
  decodeAccess_eq_reg h

/-- What a register write can do. -/
theorem writeReg_cases (s : State) (r : HostReg) (v : Word) :
    (r = .cmd ∧ s.status.busy = true ∧ s.writeReg r v = { s with status := s.status.overrun }) ∨
      (r = .cmd ∧ s.status.busy = false ∧ s.writeReg r v = s.issue v) ∨
      (r = .addr ∧ s.writeReg r v = { s with addr := v }) ∨ (r = .len ∧ s.writeReg r v = { s with len := v }) ∨
      s.writeReg r v = s := by
  cases r
  case cmd => cases hb : s.status.busy <;> simp [State.writeReg, hb]
  all_goals simp [State.writeReg]

/-- The engine's move is a command's meaning, or the end of an illegal command. -/
theorem engineMove_cases {s t : State} (h : engineMove s = .next t) :
    (∃ i, exec i s = .next t) ∨ t = s.endCommand .illegalCommand := by
  cases hf : s.fetch with
  | instr i => exact .inl ⟨i, by rw [← engineMove_instr hf]; exact h⟩
  | illegal w => rw [engineMove_illegal hf] at h; simp at h; exact .inr h.symm

/-- One step of a run. -/
theorem run_succ {M : Host.Core} {s t : M.State} (h : M.step s = .next t) (k : Nat) : M.run (k + 1) s = M.run k t := by
  rw [Host.Core.run.eq_2, h]

/-- One step of a run of this machine. -/
theorem core_run_succ {s t : State} (h : step s = .next t) (k : Nat) :
    Host.Core.run Sys2Proof.core (k + 1) s = Host.Core.run Sys2Proof.core k t :=
  run_succ (M := Sys2Proof.core) h k

end Sys2Proof.Machine
end

