-- ==== Sys2Proof/Tests/Slice0.lean ====
section
/-! SUPPORT. Own tests. Expected values come from spec/95_test_vectors.md (the vector's id stands before each test) and from
the rules; `witness_<Statement>` shows that the hypotheses of that statement can be met. -/

open Sys2Proof Sys2Proof.Machine Sys2Proof.Claims

namespace Sys2Proof.Tests

/-! ### Small states -/

/-- A live context. -/
def live (a b : Half) : Context := { sum1 := a, sum2 := b, live := true }

/-- "abcde" at 0x1000. -/
def abcde : Memory := [(0x1000, 0x61), (0x1001, 0x62), (0x1002, 0x63), (0x1003, 0x64), (0x1004, 0x65)]

/-- The machine after reset, with a context file, "abcde" in memory, and the word `w` just issued with a buffer. -/
def at' (cs : List Context) (w a n : Word) : State :=
  { State.reset with
    ctx := cs
    mem := abcde
    status := { busy := true, ovr := false }
    latch := { w := w, addr := a, len := n }
    idleSeen := false }

/-- The same with only the bytes below `0x3000` readable. -/
def below3000 (s : State) : State := { s with params := { s.params with readable := [{ base := 0, size := 0x3000 }] } }

/-- The same with a pipeline that prefers these steps. -/
def preferring (ms : List Micro) (s : State) : State := { s with params := { s.params with schedule := ms } }

/-- The next state, if there is one. -/
def nextOf : Result → Option State
  | .next s => some s
  | .fault _ => none
  | .refused _ => none

/-- CODE and RESULT of the next state. -/
def codeResult (r : Result) : Option (Word × Word) := (nextOf r).map fun s => (s.code, s.result)

/-- The context file of the next state. -/
def ctxOf (r : Result) : Option (List Context) := (nextOf r).map (·.ctx)

/-- STATUS of the next state. -/
def statusOf (r : Result) : Option Status := (nextOf r).map (·.status)

/-! ### Well-formedness: an ill-formed term for each check -/

theorem test_update_handle_256_ill_formed : wellFormed (.update 256) = false := by decide
theorem test_final_handle_256_ill_formed : wellFormed (.final 256) = false := by decide
theorem test_free_handle_256_ill_formed : wellFormed (.free 256) = false := by decide
theorem test_handles_255_well_formed :
    WellFormed .init ∧ WellFormed (.update 255) ∧ WellFormed (.final 255) ∧ WellFormed (.free 255) := by decide

/-! ### Decoding: the words bit by bit, `0000000000000000 HHHHHHHH 0000 OOOO` (R75, R76) -/

theorem test_decode_init : decode 0b0000000000000000_00000000_0000_0001#32 = .instr .init := by decide
theorem test_decode_update : decode 0b0000000000000000_10000001_0000_0010#32 = .instr (.update 129) := by decide
theorem test_decode_final : decode 0b0000000000000000_01000000_0000_0011#32 = .instr (.final 64) := by decide
theorem test_decode_free : decode 0b0000000000000000_00000010_0000_0100#32 = .instr (.free 2) := by decide

/-- V-ENC: the illegal words. -/
theorem test_decode_illegal :
    decode 0x00000000 = .illegal .reservedOp ∧ decode 0x00000005 = .illegal .reservedOp ∧
    decode 0x0000000F = .illegal .reservedOp ∧ decode 0x00000105 = .illegal .reservedOp ∧
    decode 0x00000012 = .illegal .reservedBits ∧ decode 0x00000082 = .illegal .reservedBits ∧
    decode 0x00010002 = .illegal .reservedBits ∧ decode 0x80000103 = .illegal .reservedBits ∧
    decode 0xFFFFFFFF = .illegal .reservedBits := by decide

/-- The rows of opcode_table.json, handle field 1, read from a table word. -/
theorem test_decodeTableWord :
    decodeTableWord 32 0x00000001 = some .init ∧ decodeTableWord 32 0x00000102 = some (.update 1) ∧
    decodeTableWord 32 0x00000103 = some (.final 1) ∧ decodeTableWord 32 0x00000104 = some (.free 1) ∧
    decodeTableWord 32 0x00000010 = none := by decide

/-- A word placed at reset runs in the very next step: UPDATE 1 there names a context that is not live (V-RST-2's code). -/
theorem test_placed_word_runs :
    codeResult (step (State.reset.withFetchWord 32 0x00000001)) = some (0x00000000, 1) ∧
    codeResult (step (State.reset.withFetchWord 32 0x00000102)) = some (0xFFFFFFFF, 0) ∧
    codeResult (step (State.reset.withFetchWord 32 0x00000103)) = some (0xFFFFFFFF, 0) ∧
    codeResult (step (State.reset.withFetchWord 32 0x00000104)) = some (0x00000000, 0) := by decide

/-! ### Arithmetic -/

/-- V-ARITH: red, csub on its domain, and the end-around form. -/
theorem test_reductions :
    [0x0000FFFE, 0x0000FFFF, 0x00010000, 0x0001FFFD, 0x00169A4F, 0xFFFD0AF7, 0xFFFEFFFF, 0xFFFFFFFF].map red =
      [0xFFFE, 0, 1, 0xFFFE, 0x9A65, 0x0AF5, 0xFFFE, 0] ∧
    [0x00000000, 0x0000FFFE, 0x0000FFFF, 0x00010000, 0x0001FFFD].map csub = [0, 0xFFFE, 0, 1, 0xFFFE] ∧
    ([0x0000FFFF, 0x00010000, 0x0001FFFE, 0x0001FFFF, 0x00169A4F, 0xFFFD0AF7, 0xFFFEFFFF, 0xFFFFFFFF] : List Word).map
      redEndAround = [0, 1, 0, 1, 0x9A65, 0x0AF5, 0xFFFE, 0] := by decide

/-- V-STEP-3, 5, 9, 10, 11. -/
theorem test_byte_steps :
    foldByte (0xFFFF, 0xFFFF) 0xFF = (0x00FF, 0x00FF) ∧ foldByte (0x0061, 0x0061) 0x62 = (0x00C3, 0x0124) ∧
    foldByte (0xFF00, 0x0000) 0xFF = (0x0000, 0x0000) ∧ foldByte (0xFFFE, 0xFFFE) 0xFF = (0x00FE, 0x00FD) ∧
    foldByte (0x0000, 0xFFFE) 0x01 = (0x0001, 0x0000) := by decide

/-- V-FOLD-1 and V-FOLD-5. -/
theorem test_folds :
    fold (0xFFFF, 0xFFFF) [0xFF, 0xFE] = (0x01FD, 0x02FC) ∧
    fold (0xFFFF, 0xFFFF) [0x61, 0x62, 0x63, 0x64, 0x65, 0x66, 0x67, 0x68] = (0x0324, 0x0DF8) ∧
    fold (0x0126, 0x024A) [0x64, 0x65] = (0x01EF, 0x05C3) := by decide

/-- V-PIPE-6, V-PIPE-7: the one-byte path, and 15 bytes of 0xFF from the seed. -/
theorem test_pipeline :
    ((Pipe.oneByte ⟨0xFFFF, 0xFFFF, 0, 1, 0⟩ 0xFF).w1, (Pipe.oneByte ⟨0xFFFF, 0xFFFF, 0, 1, 0⟩ 0xFF).w2) = (0xFF, 0xFF) ∧
    (Pipe.accs ⟨0xFFFF, 0xFFFF, 0, 15, 0⟩ (List.replicate 15 0xFF)).w1 = 0x10EF0 ∧
    (Pipe.accs ⟨0xFFFF, 0xFFFF, 0, 15, 0⟩ (List.replicate 15 0xFF)).w2 = 0x107778 ∧
    (Pipe.accs ⟨0xFFFF, 0xFFFF, 0, 15, 0⟩ (List.replicate 15 0xFF)).redShort.w1 = 0x0EF1 ∧
    (Pipe.accs ⟨0xFFFF, 0xFFFF, 0, 15, 0⟩ (List.replicate 15 0xFF)).redShort.w2 = 0x7788 := by decide

/-- R145, R153: preferred steps are taken where enabled, beats clipped by REM and N are passed over. -/
theorem test_plan :
    plan 5 [.beat 3, .red, .beat 9, .beat 2] 0 = [.beat 3, .red, .beat 2, .red] ∧
    plan 2 [.red, .beat 0] 0 = [.acc, .acc, .red] ∧ plan 3 [.beat 1] 5552 = [.red, .acc, .acc, .acc, .red] ∧
    permitted 5 [.beat 4, .acc, .red] = true ∧ permitted 5 [.beat 6, .red] = false ∧
    countsAfter [.beat 2] 5550 9 = some (5552, 7) ∧ countsAfter [.beat 3] 5550 9 = none := by decide

/-- V-CMD-5 and V-ERR-4 with beats: the same commit, and the abort on a beat whose third byte is unreadable. -/
theorem test_update_with_beats :
    ctxOf (exec (.update 1) (preferring [.beat 3, .red, .beat 2] (at' [live 0xFFFF 0xFFFF] 0x102 0x1000 5))) =
      some [live 0x01EF 0x05C3] ∧
    codeResult (exec (.update 1) (preferring [.beat 4] (below3000 (at' [live 1 2] 0x102 0x2FFE 4)))) =
      some (0xFFFFFFFC, 0) ∧
    ctxOf (exec (.update 1) (preferring [.beat 4] (below3000 (at' [live 1 2] 0x102 0x2FFE 4)))) = some [live 1 2] := by
  decide

/-! ### Commands -/

/-- V-CMD-1 and V-CMD-4: INIT takes the lowest context that is not live. -/
theorem test_init_lowest :
    codeResult (exec .init State.reset) = some (0x00000000, 1) ∧
    ctxOf (exec .init State.reset) = some [live 0xFFFF 0xFFFF, Context.atReset] ∧
    codeResult (exec .init (at' [Context.atReset, live 5 6] 1 0 0)) = some (0x00000000, 1) ∧
    codeResult (exec .init (at' [live 5 6, Context.atReset] 1 0 0)) = some (0x00000000, 2) := by decide

/-- V-CMD-3 and V-CMD-19: every context live. -/
theorem test_init_full :
    codeResult (exec .init { at' [live 1 2, live 3 4] 1 0 0 with result := 9 }) = some (0xFFFFFFFE, 0) ∧
    ctxOf (exec .init (at' [live 1 2, live 3 4] 1 0 0)) = some [live 1 2, live 3 4] ∧
    codeResult (exec .init (at' [live 1 2] 1 0 0)) = some (0xFFFFFFFE, 0) := by decide

/-- V-CMD-5, V-CMD-6 and V-CMD-9: "abcde" from the seed; the empty buffer at the null pointer; a buffer up to 0xFFFFFFFF. -/
theorem test_update_folds :
    ctxOf (exec (.update 1) (at' [live 0xFFFF 0xFFFF, Context.atReset] 0x102 0x1000 5)) =
      some [live 0x01EF 0x05C3, Context.atReset] ∧
    ctxOf (exec (.update 1) (at' [live 0xFFFF 0xFFFF] 0x102 0 0)) = some [live 0xFFFF 0xFFFF] ∧
    codeResult (exec (.update 1) (at' [live 0xFFFF 0xFFFF] 0x102 0xFFFFFFFE 2)) = some (0x00000000, 0) := by decide

/-- V-CMD-7, V-CMD-8, V-ERR-1, V-ERR-4, V-ERR-5: the checks and their order, and an unreadable third byte. -/
theorem test_update_errors :
    codeResult (exec (.update 1) (at' [live 1 2] 0x102 0 4)) = some (0xFFFFFFFF, 0) ∧
    codeResult (exec (.update 1) (at' [live 1 2] 0x102 0xFFFFFFFF 2)) = some (0xFFFFFFFF, 0) ∧
    codeResult (exec (.update 0) (at' [live 1 2] 0x002 0 4)) = some (0xFFFFFFFF, 0) ∧
    codeResult (exec (.update 1) (below3000 (at' [live 1 2] 0x102 0x2FFE 4))) = some (0xFFFFFFFC, 0) ∧
    ctxOf (exec (.update 1) (below3000 (at' [live 1 2] 0x102 0x2FFE 4))) = some [live 1 2] ∧
    codeResult (exec (.update 2) (below3000 (at' [live 1 2, Context.atReset] 0x202 0x5000 3))) = some (0xFFFFFFFF, 0) := by
  decide

/-- V-CMD-11: FINAL of a live context. -/
theorem test_final_checksum :
    codeResult (exec (.final 1) (at' [live 0x01EF 0x05C3] 0x103 0 0)) = some (0x00000000, 0x05C301EF) ∧
    ctxOf (exec (.final 1) (at' [live 0x01EF 0x05C3] 0x103 0 0)) = some [live 0x01EF 0x05C3] := by decide

/-- V-CMD-15 and V-CMD-16: FINAL of a bad handle keeps RESULT. -/
theorem test_final_bad_handle :
    codeResult (exec (.final 1) { at' [Context.atReset] 0x103 0 0 with result := 0x05C301EF }) =
      some (0xFFFFFFFF, 0x05C301EF) ∧
    codeResult (exec (.final 3) (at' [live 1 2, live 3 4] 0x303 0 0)) = some (0xFFFFFFFF, 0) := by decide

/-- V-CMD-13: FREE keeps the sums and clears `live`. -/
theorem test_free_releases :
    ctxOf (exec (.free 1) (at' [live 1 2, live 3 4] 0x104 0 0)) =
      some [{ sum1 := 1, sum2 := 2, live := false }, live 3 4] := by decide

/-- V-CMD-14: FREE of a handle that names no live context. -/
theorem test_free_no_op :
    ctxOf (exec (.free 0) (at' [live 1 2, Context.atReset] 0x004 0 0)) = some [live 1 2, Context.atReset] ∧
    ctxOf (exec (.free 7) (at' [live 1 2, Context.atReset] 0x704 0 0)) = some [live 1 2, Context.atReset] ∧
    codeResult (exec (.free 2) (at' [live 1 2, Context.atReset] 0x204 0 0)) = some (0x00000000, 0) := by decide

/-- V-CMD-17, V-CMD-18, V-ERR-2: illegal words. -/
theorem test_illegal_word :
    codeResult (step (at' [live 1 2] 0x00000000 0x1000 5)) = some (0xFFFFFFFD, 0) ∧
    codeResult (step (at' [live 1 2] 0x00010102 0x1000 5)) = some (0xFFFFFFFD, 0) ∧
    ctxOf (step (at' [live 1 2] 0x00010102 0x1000 5)) = some [live 1 2] ∧
    codeResult (step (at' [live 1 2] 0x00010003 0 0)) = some (0xFFFFFFFD, 0) := by decide

/-! ### The host's side -/

/-- V-RST-1: the registers after reset, with NUM_CTX = 2. -/
theorem test_reset_registers :
    [HostReg.cmd, .addr, .len, .status, .code, .result, .config, .reserved].map State.reset.readReg =
      [0, 0, 0, 0, 0, 0, 2, 0] := by decide

/-- V-RST-4 and V-RST-5: reset while a command is in flight. -/
theorem test_reset_in_flight :
    statusOf (step { at' [live 1 2] 0x102 0x1000 5 with
      delay := 1, host := [.reset], status := { busy := true, ovr := true } }) = some { busy := false, ovr := false } ∧
    ctxOf (step { at' [live 1 2] 0x102 0x1000 5 with delay := 1, host := [.reset] }) = some [Context.atReset] := by decide

/-- V-ERR-7: a CMD write while BUSY = 1. -/
theorem test_overrun :
    statusOf (step { at' [live 1 2] 0x102 0x1000 5 with delay := 1, host := [.write 0 .word 0x00000001] }) =
      some { busy := true, ovr := true } := by decide

/-- R8: the host loads a byte of data memory, also while a command is in flight. -/
theorem test_host_load :
    (nextOf (step { at' [live 1 2] 0x102 0x1000 5 with delay := 1, host := [.load 0x1002] })).map (·.hostReads) =
      some [.data 0x1002 0x63] := by decide

/-- R198: a lone CMD write has not ended when its command has completed; a WAIT that reads BUSY = 0 ends it. -/
theorem test_program_end :
    (nextOf (step (at' [live 1 2] 0x00000103 0 0))).map (fun t => (t.status.busy, t.host, t.programEnded)) =
      some (false, [], false) ∧
    (nextOf (step { State.reset with host := [.wait], idleSeen := false })).map (fun t => (t.hostReads, t.programEnded)) =
      some ([.reg .status 0], true) := by decide

/-- R56: which accesses are refused, at both ends of the window. -/
theorem test_window_accesses :
    decodeAccess 32 32 .word = .reg .cmd ∧ decodeAccess 32 60 .word = .reg .reserved ∧ decodeAccess 32 64 .word = .outside ∧
    decodeAccess 32 28 .word = .outside ∧ decodeAccess 32 30 .word = .bad ∧ decodeAccess 32 34 .word = .bad ∧
    decodeAccess 32 36 .byte = .bad ∧ decodeAccess 32 36 .half = .bad ∧ decodeAccess 32 32 .double = .bad ∧
    decodeAccess 32 28 .double = .bad := by decide

/-- Memory keeps its canonical form: a store of 0x00 removes the entry. -/
theorem test_memory_write :
    Memory.write abcde 0x1002 0x00 = [(0x1000, 0x61), (0x1001, 0x62), (0x1003, 0x64), (0x1004, 0x65)] ∧
    Memory.write [(5, 1)] 3 7 = [(3, 7), (5, 1)] ∧ Memory.read (Memory.write abcde 0x1002 0x41) 0x1002 = 0x41 := by decide

/-! ### Witnesses: the hypotheses of every statement that has some can be met -/

/-- UPDATE 1 of "abcde" in flight, context 1 at the seed. -/
def busyUpdate : State := at' [live 0xFFFF 0xFFFF, Context.atReset] 0x102 0x1000 5

/-- The same with one statement of the host still to be served before it completes. -/
def busyWith (st : HostStmt) : State := { busyUpdate with delay := 1, host := [st] }

/-- The machine idle after reset, with one statement of the host. -/
def idleWith (st : HostStmt) : State := { State.reset with host := [st] }

theorem live_busyUpdate : LiveHandle busyUpdate 1 (live 0xFFFF 0xFFFF) := ⟨by decide, rfl, rfl⟩

theorem readable_busyUpdate : AllReadable busyUpdate := by unfold AllReadable; decide

theorem space_busyUpdate : BufferInSpace busyUpdate := by unfold BufferInSpace; decide

theorem witness_DecodeOfEncode : WellFormed .init ∧ WellFormed (.update 0) ∧ WellFormed (.final 255) ∧ WellFormed (.free 7) := by
  decide

theorem witness_EncodeOfDecode :
    decode 0x0000AB01 = .instr .init ∧ decode 0x0000FF02 = .instr (.update 255) ∧ Instr.update 255 ≠ .init := by decide

theorem witness_PseudoInstructionExpansions : 0 < 256 ∧ 255 < 256 := by decide

theorem witness_ConditionalSubtractorReduces : 0 ≤ 0x1FFFD ∧ 0xFFFF ≤ 0x1FFFD ∧ 0x1FFFD ≤ 0x1FFFD := by decide

theorem witness_ModularAdder : 0xFFFF ≤ 0xFFFF ∧ 0xFFFE ≤ 0xFFFE := by decide

theorem witness_ByteStepClosedForm : 0xFFFF ≤ 0xFFFF ∧ 0 ≤ 0xFFFF := by decide

theorem witness_FoldRanges : 0xFFFF ≤ 0xFFFF ∧ ([0x00] : List Byte) ≠ [] := by decide

theorem witness_FoldClosedForm : 0xFFFF ≤ 0xFFFF ∧ ([0xFF, 0xFE] : List Byte) ≠ [] := by decide

theorem witness_SeedMattersOnlyForEmpty : ([0x00] : List Byte) ≠ [] := by decide

/-- The reference schedule, one with a reduction after every byte, and one with beats. -/
theorem witness_PermittedSchedulesCommitFold :
    LiveHandle busyUpdate 1 (live 0xFFFF 0xFFFF) ∧ 1 ≤ busyUpdate.latch.len.toNat ∧ AllReadable busyUpdate ∧
      permitted busyUpdate.latch.len.toNat [.acc, .acc, .acc, .acc, .acc, .red] = true ∧
      permitted busyUpdate.latch.len.toNat [.acc, .red, .acc, .red, .acc, .red, .acc, .red, .acc, .red] = true ∧
      permitted busyUpdate.latch.len.toNat [.beat 4, .acc, .red] = true :=
  ⟨live_busyUpdate, by decide, readable_busyUpdate, by decide, by decide, by decide⟩

/-- After one ACC and a beat, with an ACC still allowed. -/
theorem witness_WorkingRegistersNeverOverflow :
    countsAfter [.acc, .beat 2] 0 5 = some (3, 2) ∧
      (∃ t, runMicros [.acc, .beat 2] (busyUpdate.load (live 0xFFFF 0xFFFF)) = some t) ∧ 3 < Config.batchBound :=
  ⟨by decide, ⟨_, rfl⟩, by decide⟩

theorem witness_WorkingRegistersCongruent :
    countsAfter [.acc, .red, .acc] 0 busyUpdate.latch.len.toNat = some (1, 3) ∧
      ∃ t, runMicros [.acc, .red, .acc] (busyUpdate.load (live 0xFFFF 0xFFFF)) = some t := ⟨by decide, ⟨_, rfl⟩⟩

theorem witness_ScheduleStepCounts :
    1 ≤ 1 ∧ permitted 1 [.acc, .red] = true ∧ (∀ k, Micro.beat k ∉ [Micro.acc, .red]) ∧
      permitted 2 [.acc, .red, .acc, .red] = true ∧ permitted 3 [.beat 2, .red, .acc, .red] = true :=
  ⟨by decide, by decide, by simp, by decide, by decide⟩

/-- The third byte of V-ERR-4's buffer is unreadable, in a beat of four. -/
theorem witness_BeatEqualsAccs :
    2 < 4 ∧ ((below3000 (at' [live 1 2] 0x102 0x2FFE 4)).load (live 1 2)).readable
      (((below3000 (at' [live 1 2] 0x102 0x2FFE 4)).load (live 1 2)).pipe.ptr + BitVec.ofNat 32 2) = false := by decide

theorem witness_ShortReductionDomain :
    (Pipe.loaded (live 0xFFFF 0xFFFF) Latch.atReset).w1.toNat ≤ 0xFFFF ∧ (List.replicate 256 (0xFF : Byte)).length ≤ 256 :=
  ⟨by decide, (List.length_replicate ..).le⟩

theorem witness_OneBytePathIsByteStep :
    (Pipe.loaded (live 0xFFFF 0xFFFF) Latch.atReset).w1.toNat ≤ 0xFFFF ∧
      (Pipe.loaded (live 0xFFFF 0xFFFF) Latch.atReset).w2.toNat ≤ 0xFFFF := by decide

/-- Context 2 free behind a live one. -/
theorem witness_InitSeedsLowestFree :
    busyUpdate.numCtx ≤ 255 ∧ busyUpdate.ctx[1]? = some Context.atReset ∧ Context.atReset.live = false ∧
      ∀ j d, j < 1 → busyUpdate.ctx[j]? = some d → d.live = true := by
  refine ⟨by decide, rfl, rfl, ?_⟩
  intro j d hj hd
  obtain rfl : j = 0 := by omega
  have : d = live 0xFFFF 0xFFFF := by
    have e : busyUpdate.ctx[0]? = some (live 0xFFFF 0xFFFF) := rfl
    rw [e] at hd; exact (Option.some.inj hd).symm
  rw [this]; rfl

theorem witness_InitAllocationFailure : ∀ c ∈ (at' [live 1 2, live 3 4] 1 0 0).ctx, c.live = true := by decide

/-- "abcde", and a buffer that ends at 0xFFFFFFFF. -/
theorem witness_UpdateCommitsReferenceFold :
    (LiveHandle busyUpdate 1 (live 0xFFFF 0xFFFF) ∧ BufferInSpace busyUpdate ∧ 1 ≤ busyUpdate.latch.len.toNat ∧
      AllReadable busyUpdate) ∧
    (LiveHandle (withBuffer busyUpdate 0xFFFFFFFE 2) 1 (live 0xFFFF 0xFFFF) ∧
      BufferInSpace (withBuffer busyUpdate 0xFFFFFFFE 2) ∧ 1 ≤ (withBuffer busyUpdate 0xFFFFFFFE 2).latch.len.toNat ∧
      AllReadable (withBuffer busyUpdate 0xFFFFFFFE 2)) :=
  ⟨⟨live_busyUpdate, space_busyUpdate, by decide, readable_busyUpdate⟩,
    ⟨by decide, rfl, rfl⟩, by unfold BufferInSpace; decide, by decide, by unfold AllReadable; decide⟩

/-- Each cause: null, out of range, not live, null pointer, and a buffer one byte too long. -/
theorem witness_UpdateInvalidArgument :
    BadHandle busyUpdate 0 ∧ BadHandle busyUpdate 3 ∧ BadHandle busyUpdate 2 ∧
      ((withBuffer busyUpdate 0 1).latch.addr = 0 ∧ (withBuffer busyUpdate 0 1).latch.len ≠ 0) ∧
      2 ^ 32 < (withBuffer busyUpdate 0xFFFFFFFF 2).latch.addr.toNat + (withBuffer busyUpdate 0xFFFFFFFF 2).latch.len.toNat :=
  ⟨.inl rfl, .inr (.inl (by decide)), .inr (.inr ⟨Context.atReset, rfl, rfl⟩), by decide, by decide⟩

theorem witness_UpdateOfNothing :
    LiveHandle (withBuffer busyUpdate 0 0) 1 (live 0xFFFF 0xFFFF) ∧ (withBuffer busyUpdate 0 0).latch.len = 0 :=
  ⟨⟨by decide, rfl, rfl⟩, rfl⟩

/-- V-ERR-4's buffer: its third byte is the first that cannot be read. -/
theorem witness_UpdateBusError :
    LiveHandle (below3000 (withBuffer busyUpdate 0x2FFE 4)) 1 (live 0xFFFF 0xFFFF) ∧
      BufferInSpace (below3000 (withBuffer busyUpdate 0x2FFE 4)) ∧
      2 < (below3000 (withBuffer busyUpdate 0x2FFE 4)).latch.len.toNat ∧
      (below3000 (withBuffer busyUpdate 0x2FFE 4)).readable
        ((below3000 (withBuffer busyUpdate 0x2FFE 4)).latch.addr + BitVec.ofNat 32 2) = false :=
  ⟨⟨by decide, rfl, rfl⟩, by unfold BufferInSpace; decide, by decide, by decide⟩

theorem witness_FinalReturnsChecksum : LiveHandle (at' [live 0x01EF 0x05C3] 0x103 0 0) 1 (live 0x01EF 0x05C3) :=
  ⟨by decide, rfl, rfl⟩

theorem witness_FinalInvalidArgument : BadHandle busyUpdate 0 ∧ BadHandle busyUpdate 3 ∧ BadHandle busyUpdate 2 :=
  ⟨.inl rfl, .inr (.inl (by decide)), .inr (.inr ⟨Context.atReset, rfl, rfl⟩)⟩

theorem witness_FreeReleases : LiveHandle busyUpdate 1 (live 0xFFFF 0xFFFF) := live_busyUpdate

theorem witness_FreeOfOtherIsNoOp : BadHandle busyUpdate 0 ∧ BadHandle busyUpdate 255 ∧ BadHandle busyUpdate 2 :=
  ⟨.inl rfl, .inr (.inl (by decide)), .inr (.inr ⟨Context.atReset, rfl, rfl⟩)⟩

theorem witness_IllegalChangesOnlyCode :
    (at' [live 1 2] 0x00000005 0 0).engineTurn = true ∧
      decode (at' [live 1 2] 0x00000005 0 0).latch.w = .illegal .reservedOp ∧
      (at' [live 1 2] 0x00010001 0 0).engineTurn = true ∧
      decode (at' [live 1 2] 0x00010001 0 0).latch.w = .illegal .reservedBits := by decide

theorem witness_OtherContextsUnchanged :
    (∃ t, exec (.update 1) busyUpdate = .next t) ∧ namedBy (.update 1) busyUpdate ≠ some 2 ∧
      (∃ t, exec .init busyUpdate = .next t) ∧ namedBy .init busyUpdate ≠ some 1 :=
  ⟨exec_total _ _, by decide, exec_total _ _, by decide⟩

theorem witness_CommandFrame :
    (∃ t, exec .init busyUpdate = .next t) ∧ (∃ t, exec (.update 1) busyUpdate = .next t) ∧
      (∃ t, exec (.final 1) busyUpdate = .next t) ∧ ∃ t, exec (.free 1) busyUpdate = .next t :=
  ⟨exec_total _ _, exec_total _ _, exec_total _ _, exec_total _ _⟩

theorem witness_OtherSumsAreNotObserved :
    (∃ t, exec (.final 1) busyUpdate = .next t) ∧ namedBy (.final 1) busyUpdate ≠ some 2 := ⟨exec_total _ _, by decide⟩

theorem witness_UpdatesOfDistinctContextsCommute : 1 ≠ 2 ∧ NoDraws busyUpdate := ⟨by decide, rfl, rfl⟩

/-- "abcde" in two pieces; an empty first piece; an empty second piece, up to the top of memory. -/
theorem witness_ChunkingDoesNotMatter :
    LiveHandle busyUpdate 1 (live 0xFFFF 0xFFFF) ∧ NoDraws busyUpdate ∧
    ((0x1000 : Word) ≠ 0 ∧ 3 + 2 < 2 ^ 32 ∧ (0x1000 : Word).toNat + (3 + 2) ≤ 2 ^ 32 ∧
      AllReadable (withBuffer busyUpdate 0x1000 (BitVec.ofNat 32 (3 + 2)))) ∧
    ((0x1000 : Word) ≠ 0 ∧ 0 + 5 < 2 ^ 32 ∧ (0x1000 : Word).toNat + (0 + 5) ≤ 2 ^ 32 ∧
      AllReadable (withBuffer busyUpdate 0x1000 (BitVec.ofNat 32 (0 + 5)))) ∧
    ((0xFFFFFFFF : Word) ≠ 0 ∧ 1 + 0 < 2 ^ 32 ∧ (0xFFFFFFFF : Word).toNat + (1 + 0) ≤ 2 ^ 32 ∧
      AllReadable (withBuffer busyUpdate 0xFFFFFFFF (BitVec.ofNat 32 (1 + 0)))) :=
  ⟨live_busyUpdate, ⟨rfl, rfl⟩, ⟨by decide, by decide, by decide, by unfold AllReadable; decide⟩,
    ⟨by decide, by decide, by decide, by unfold AllReadable; decide⟩,
    ⟨by decide, by decide, by decide, by unfold AllReadable; decide⟩⟩

theorem witness_FinalIsAPeek : LiveHandle busyUpdate 1 (live 0xFFFF 0xFFFF) := live_busyUpdate

theorem witness_StaleHandleReleasesNewOwner :
    LiveHandle busyUpdate 1 (live 0xFFFF 0xFFFF) ∧ busyUpdate.numCtx ≤ 255 ∧
      ∀ j d, j < 1 - 1 → busyUpdate.ctx[j]? = some d → d.live = true :=
  ⟨live_busyUpdate, by decide, fun j _ hj => absurd hj (by omega)⟩

theorem witness_StepRunsDecodedCommand :
    busyUpdate.engineTurn = true ∧ decode busyUpdate.latch.w = .instr (.update 1) ∧
      decode (BitVec.ofNat 32 (0x00000001 % 2 ^ 32)) = .instr .init := by decide

theorem witness_AcceptedIssueLatches :
    (idleWith (.write 0 .word 0x102)).status.busy = false ∧
      (idleWith (.write 0 .word 0x102)).host = .write (idleWith (.write 0 .word 0x102)).params.regBase .word 0x102 :: [] := by
  decide

theorem witness_CmdWriteWhileBusyIsDropped :
    (busyWith (.write 0 .word 1)).status.busy = true ∧ (busyWith (.write 0 .word 1)).delay ≠ 0 ∧
      (busyWith (.write 0 .word 1)).host = .write (busyWith (.write 0 .word 1)).params.regBase .word 1 :: [] := by decide

theorem witness_CommandsReadOnlyLatches : ∃ t, exec (.update 1) busyUpdate = .next t := exec_total _ _

/-- Each clause: OVR cleared, OVR set, BUSY set, BUSY cleared by a completion and by a reset. -/
theorem witness_FlagsChangeOnlyByIssueCompletionOverrunReset :
    (∃ t, step { busyWith .reset with status := { busy := true, ovr := true } } = .next t ∧ t.status.ovr = false ∧
      t.status.busy = false) ∧
    (∃ t, step (busyWith (.write 0 .word 1)) = .next t ∧ t.status.ovr = true) ∧
    (∃ t, step (idleWith (.write 0 .word 1)) = .next t ∧ t.status.busy = true) ∧
    ∃ t, step (at' [live 1 2] 0x00000003 0 0) = .next t ∧ t.status.busy = false :=
  ⟨⟨_, rfl, rfl, rfl⟩, ⟨_, rfl, rfl⟩, ⟨_, rfl, rfl⟩, ⟨_, rfl, rfl⟩⟩

theorem witness_ReadOnlyWritesIgnored :
    (idleWith (.write (0 + HostReg.result.offset) .word 1)).engineTurn = false ∧
      (busyWith (.write (0 + HostReg.status.offset) .word 1)).engineTurn = false ∧
      (busyWith (.write (0 + HostReg.status.offset) .word 1)).host =
        .write ((busyWith (.write (0 + HostReg.status.offset) .word 1)).params.regBase + HostReg.status.offset) .word 1 :: [] := by
  decide

/-- Idle and busy. -/
theorem witness_AddrAndLenReadBack :
    (idleWith (.write (0 + 0x04) .word 0xFFFFFFFF)).engineTurn = false ∧
      (busyWith (.write (0 + 0x08) .word 7)).engineTurn = false ∧
      (busyWith (.write (0 + 0x08) .word 7)).host =
        .write ((busyWith (.write (0 + 0x08) .word 7)).params.regBase + 0x08) .word 7 :: [] := by decide

/-- A register, and a data byte; the latter in a region free of side effects. -/
theorem witness_HostReadReturnsRegister :
    ((busyWith (.load 0x1002)).engineTurn = false ∧ (busyWith (.load 0x1002)).host = .load 0x1002 :: [] ∧
      (busyWith (.load 0x1002)).params.sideEffects.any (·.contains 0x1002) = false) ∧
    (busyWith (.read (0 + HostReg.status.offset) .word)).engineTurn = false ∧
      (busyWith (.read (0 + HostReg.status.offset) .word)).host =
        .read ((busyWith (.read (0 + HostReg.status.offset) .word)).params.regBase + HostReg.status.offset) .word :: [] := by
  decide

/-- A byte, a word across the end of the window, and a word that is not aligned. -/
theorem witness_OtherWindowAccessRefused :
    (idleWith (.read 0x1F .byte)).engineTurn = false ∧ 0x1F < 0 + 32 ∧ 0 < 0x1F + Size.byte.bytes ∧ Size.byte ≠ Size.word ∧
      0x1D < 0 + 32 ∧ 0 < 0x1D + Size.word.bytes ∧ (0x1D - 0) % 4 ≠ 0 := by decide

theorem witness_ResultsChangeOnlyAtCompletion :
    (∃ t, step (busyWith (.write 4 .word 9)) = .next t) ∧ (busyWith (.write 4 .word 9)).engineTurn = false ∧
      ∀ rest, (busyWith (.write 4 .word 9)).host ≠ .reset :: rest :=
  ⟨⟨_, rfl⟩, by decide, fun _ h => by cases h⟩

/-- A command in flight beside a host that writes CMD and waits. -/
theorem witness_CompletionIsCertain :
    (busyWith (.write 0 .word 1)).status.busy = true ∧
      ∀ st ∈ (busyWith (.write 0 .word 1)).host, ∀ a z, (st = .read a z ∨ ∃ v, st = .write a z v) →
        decodeAccess (busyWith (.write 0 .word 1)).params.regBase a z ≠ .bad := by
  refine ⟨rfl, fun st hst a z h => ?_⟩
  obtain rfl : st = .write 0 .word 1 := by simpa [busyWith] using hst
  rcases h with h | ⟨v, h⟩
  · cases h
  · obtain ⟨rfl, rfl, _⟩ := HostStmt.write.inj h
    decide

theorem witness_WaitAndIdle :
    (∃ t, step { idleWith .wait with idleSeen := false } = .next t ∧ t.idleSeen = true) ∧
      (MachineInv State.reset = true ∧ State.reset.programEnded = true) ∧
      (busyWith .wait).engineTurn = false ∧ (busyWith .wait).host = .wait :: [] ∧ (busyWith .wait).status.busy = true ∧
      (idleWith .wait).engineTurn = false ∧ (idleWith .wait).host = .wait :: [] ∧ (idleWith .wait).status.busy = false ∧
      State.reset.status.busy = false ∧ State.reset.host = [] := ⟨⟨_, rfl, rfl⟩, by decide⟩

theorem witness_BufferBytesAreStored :
    BufferInSpace busyUpdate ∧ bufferStill busyUpdate = true ∧ bufferQuiet busyUpdate = true :=
  ⟨space_busyUpdate, by decide, by decide⟩

theorem witness_HostStoreIsSeenOrDrawn :
    Memory.wf busyUpdate.mem = true ∧ busyUpdate.status.busy = true ∧ Memory.wf State.reset.mem = true ∧
      State.reset.status.busy = false ∧ State.reset.isDraw 0xFFFFFFFF = false ∧ (0 : Word) ≠ 0xFFFFFFFF := by decide

theorem witness_OnlyHostStoresChangeMemory :
    ∃ t, step (idleWith (.store 0xFFFFFFFF 1)) = .next t ∧ t.mem ≠ (idleWith (.store 0xFFFFFFFF 1)).mem ∧
      Memory.wf (idleWith (.store 0xFFFFFFFF 1)).mem = true := ⟨_, rfl, by decide, by decide⟩

theorem witness_ResetAbandonsCommand :
    (busyWith .reset).engineTurn = false ∧ (busyWith .reset).host = .reset :: [] ∧ (busyWith .reset).status.busy = true := by
  decide

theorem witness_ParametersAreConstant : ∃ t, step busyUpdate = .next t := exec_total (.update 1) busyUpdate

/-- A step from a state that meets the invariant with a command in flight. -/
theorem witness_InvariantKeptByStep : MachineInv busyUpdate = true ∧ ∃ t, step busyUpdate = .next t :=
  ⟨by decide, exec_total (.update 1) busyUpdate⟩

theorem witness_InvariantHoldsAtReset : 1 ≤ 1 ∧ 1 ≤ 255 ∧ 255 ≤ 255 ∧ { Params.default with regBase := 64 }.regBase % 32 = 0 := by
  decide

end Sys2Proof.Tests
end

section
/-! SUPPORT. The schedule the machine plans is permitted (42_batched_pipeline.md R145, R152, R153; log 10), and a schedule that
ends with RUN = 0 after at least one byte leaves canonical sums in the working registers (R93, R143). -/

namespace Sys2Proof.Machine

/-- An enabled step at the head of a schedule hands its counts to the rest. -/
theorem countsAfter_cons_of_counts {m : Micro} {run rem : Nat} {c : Nat × Nat} (h : m.counts run rem = some c)
    (ms : List Micro) : countsAfter (m :: ms) run rem = countsAfter ms c.1 c.2 := by
  simp [countsAfter, h]

theorem counts_acc {run rem : Nat} (h : run < 5552) : Micro.acc.counts run (rem + 1) = some (run + 1, rem) := by
  simp [Micro.counts, Config.batchBound, h]

theorem counts_red {run rem : Nat} (h : run ≠ 0) : Micro.red.counts run rem = some (0, rem) := by
  simp only [Micro.counts, if_pos (Nat.one_le_iff_ne_zero.mpr h)]

/-- No step takes RUN above N (R142, R153). -/
theorem counts_run_le {m : Micro} {run rem : Nat} {c : Nat × Nat} (h : m.counts run rem = some c) : c.1 ≤ 5552 := by
  cases m <;> simp only [Micro.counts, Option.ite_none_right_eq_some, Option.some.injEq] at h <;> obtain ⟨hen, rfl⟩ := h
  case acc => exact hen.2
  case red => exact Nat.zero_le _
  case beat k => exact hen.2.2

/-- Every step of the reference schedule is enabled, and COMMIT is enabled after the last one (R144, R152). -/
theorem countsAfter_referencePlan (n : Nat) :
    ∀ {run : Nat}, run ≤ 5552 → countsAfter (referencePlan n run) run n = some (0, 0) := by
  induction n with
  | zero =>
    intro run _
    by_cases h0 : run = 0
    · simp [referencePlan, h0]
    · simp only [referencePlan, if_neg h0, countsAfter_cons_of_counts (counts_red h0), countsAfter_nil]
  | succ n ih =>
    intro run hrun
    by_cases hN : run = Config.batchBound
    · have hred : Micro.red.counts run (n + 1) = some (0, n + 1) := counts_red (by rw [hN]; decide)
      have hacc : Micro.acc.counts 0 (n + 1) = some (0 + 1, n) := counts_acc (by omega)
      rw [referencePlan, if_pos hN, countsAfter_cons_of_counts hred, countsAfter_cons_of_counts hacc]
      exact ih (by omega)
    · have hlt : run < 5552 := Nat.lt_of_le_of_ne hrun hN
      rw [referencePlan, if_neg hN, countsAfter_cons_of_counts (counts_acc hlt)]
      exact ih hlt

/-- Whatever steps the pipeline prefers, the planned schedule is enabled to its end and COMMIT after it (R145). -/
theorem countsAfter_plan (preferred : List Micro) :
    ∀ {n run : Nat}, run ≤ 5552 → countsAfter (plan n preferred run) run n = some (0, 0) := by
  induction preferred with
  | nil => intro n run hrun; exact countsAfter_referencePlan n hrun
  | cons m ms ih =>
    intro n run hrun
    cases hc : m.counts run n with
    | none => simpa only [plan, hc] using ih hrun
    | some c => simpa only [plan, hc, countsAfter_cons_of_counts hc] using ih (counts_run_le hc)

/-- W1 and W2 hold canonical sums (R93). -/
def Pipe.Reduced (p : Pipe) : Prop := p.w1.toNat < 65535 ∧ p.w2.toNat < 65535

theorem Pipe.red_reduced (p : Pipe) : p.red.Reduced := by
  constructor <;> simp only [red_w1_toNat, red_w2_toNat] <;> exact Nat.mod_lt _ (by decide)

/-- A schedule that ends with RUN = 0 and REM = 0 leaves canonical sums, unless it was already at its end: every step that folds
a byte makes RUN nonzero, so a RED follows it. -/
theorem runMicros_reduced {ms : List Micro} : ∀ {s t : State} {run rem : Nat},
    countsAfter ms run rem = some (0, 0) → runMicros ms s = some t → (run = 0 → rem = 0 → s.pipe.Reduced) →
      t.pipe.Reduced := by
  induction ms with
  | nil =>
    intro s t run rem hc hr hs
    simp only [countsAfter_nil, Option.some.injEq, Prod.mk.injEq] at hc
    obtain rfl : s = t := by simpa [runMicros] using hr
    exact hs hc.1 hc.2
  | cons m ms ih =>
    intro s t run rem hc hr _
    obtain ⟨u, hu, ht⟩ := State.runMicros_cons.mp hr
    cases m with
    | acc =>
      obtain ⟨_, _, hc'⟩ := countsAfter_acc hc
      exact ih hc' ht fun h0 => absurd h0 (by omega)
    | red =>
      obtain ⟨_, hc'⟩ := countsAfter_red hc
      obtain rfl : s.red = u := by simpa [Micro.run] using hu
      exact ih hc' ht fun _ _ => s.pipe.red_reduced
    | beat k =>
      obtain ⟨_, _, _, hc'⟩ := countsAfter_beat hc
      exact ih hc' ht fun h0 => absurd h0 (by omega)

/-- The machine's own schedule of a non-empty buffer ends with canonical sums in W1 and W2. -/
theorem runMicros_plan_reduced {n : Nat} {preferred : List Micro} {s t : State} (hn : n ≠ 0)
    (h : runMicros (plan n preferred 0) s = some t) : t.pipe.Reduced :=
  runMicros_reduced (countsAfter_plan preferred (by omega)) h fun _ h0 => absurd h0 hn

end Sys2Proof.Machine
end

section
/-! SUPPORT. The invariant's pieces: which context files keep R21, and what the end of a command and a host statement keep. -/

namespace Sys2Proof.Machine

theorem sumsLegal_of_not_live {c : Context} (h : c.live = false) : c.sumsLegal = true := by
  simp [Context.sumsLegal, h]

theorem sumsLegal_seeded : seededContext.sumsLegal = true := by decide

/-- The low halves of reduced working registers are canonical sums (R144). -/
theorem sumsLegal_commit {p : Pipe} (h : p.Reduced) (c : Context) :
    ({ c with sum1 := p.w1.setWidth 16, sum2 := p.w2.setWidth 16 } : Context).sumsLegal = true := by
  obtain ⟨h1, h2⟩ := h
  have hlow : ∀ w : Word, w.toNat < 65535 → canonical (w.setWidth 16).toNat = true := by
    intro w hw
    rw [canonical_iff, BitVec.toNat_setWidth]
    omega
  simp only [Context.sumsLegal, hlow _ h1, hlow _ h2, Bool.and_self, Bool.or_true]

namespace State

/-- A property of every context is kept when the new value of the changed one has it. -/
theorem forall_mem_modifyCtx {P : Context → Prop} {s : State} {g : Context → Context} (hs : ∀ c ∈ s.ctx, P c)
    (hg : ∀ c, P (g c)) (h : Nat) : ∀ c ∈ (s.modifyCtx h g).ctx, P c := by
  intro d hd
  by_cases h0 : h = 0
  · exact hs d (by simpa [modifyCtx, h0] using hd)
  · rw [modifyCtx_ctx s h0, List.mem_iff_getElem?] at hd
    obtain ⟨i, hi⟩ := hd
    rw [List.getElem?_modify] at hi
    obtain ⟨c, hc, rfl⟩ := Option.map_eq_some_iff.mp hi
    split
    · exact hg c
    · exact hs c (List.mem_of_getElem? hc)

@[simp] theorem setResult_numCtx (s : State) (v : Word) : (s.setResult v).numCtx = s.numCtx := rfl
@[simp] theorem resetDevice_numCtx (s : State) : s.resetDevice.numCtx = s.numCtx := by simp [numCtx]

end State

/-- The end of a command meets the invariant when the context file, of the old size, keeps R21 and the parameters and memory
are the old ones: CODE, RUN and what is pending are written by the end itself. -/
theorem machineInv_endCommand {s u : State} (hs : MachineInv s = true) (hnum : u.numCtx = s.numCtx)
    (hsums : ∀ c ∈ u.ctx, c.sumsLegal = true) (hparams : u.params = s.params) (hmem : u.mem = s.mem) (k : Code) :
    MachineInv (u.endCommand k) = true := by
  obtain ⟨hlo, hhi, hbase, _, _, _, _, hwf, _⟩ := (machineInv_iff s).mp hs
  rw [← hnum] at hlo hhi
  rw [← hparams] at hbase
  rw [← hmem] at hwf
  exact (machineInv_iff _).mpr ⟨hlo, hhi, hbase, hsums, codeLegal_word k, idlePipe_run_le _, .inr ⟨rfl, rfl⟩, hwf, by simp⟩

/-- Every command keeps the invariant. -/
theorem machineInv_exec {i : Instr} {s t : State} (hs : MachineInv s = true) (h : exec i s = .next t) :
    MachineInv t = true := by
  obtain ⟨_, _, _, hsums, _⟩ := (machineInv_iff s).mp hs
  rcases exec_cases h with ⟨c, rfl⟩ | ⟨_, rfl⟩ | ⟨k, _, _, rfl⟩ | ⟨k, c, u, _, _, hlen, hu, rfl⟩ | ⟨k, c, _, _, rfl⟩ |
    ⟨k, c, _, _, rfl⟩
  · exact machineInv_endCommand hs rfl hsums rfl rfl c
  · exact machineInv_endCommand hs rfl hsums rfl rfl _
  · exact machineInv_endCommand hs (by simp) (State.forall_mem_modifyCtx hsums (fun _ => sumsLegal_seeded) k) (by simp)
      (by simp) _
  · have hred : u.pipe.Reduced := runMicros_plan_reduced hlen hu
    have hframe := State.runMicros_frame hu
    rw [State.commit_eq]
    refine machineInv_endCommand hs ?_ (State.forall_mem_modifyCtx ?_ (sumsLegal_commit hred) k) ?_ ?_ _
    · rw [State.modifyCtx_numCtx, hframe]; rfl
    · rw [hframe]; exact hsums
    · rw [State.modifyCtx_params, hframe]; rfl
    · rw [State.modifyCtx_mem, hframe]; rfl
  · exact machineInv_endCommand hs rfl hsums rfl rfl _
  · exact machineInv_endCommand hs (by simp) (State.forall_mem_modifyCtx hsums (fun _ => sumsLegal_of_not_live rfl) k)
      (by simp) (by simp) _

end Sys2Proof.Machine
end

section
/-! SUPPORT. The host's statements keep the invariant. -/

namespace Sys2Proof.Machine

/-- Serving one more statement keeps the invariant. -/
theorem machineInv_takeStmt {s : State} (hs : MachineInv s = true) (rest : List HostStmt) :
    MachineInv (s.takeStmt rest) = true := by
  obtain ⟨hlo, hhi, hbase, hsums, hcode, hrun, hpend, hwf, hseen⟩ := (machineInv_iff s).mp hs
  refine (machineInv_iff _).mpr ⟨hlo, hhi, hbase, hsums, hcode, hrun, hpend.imp_right ?_, hwf, hseen⟩
  rintro ⟨hraced, hdelay⟩
  exact ⟨hraced, by simp [hdelay]⟩

/-- An accepted issue, a lost CMD write, and every other register write keep the invariant. -/
theorem machineInv_writeReg {s : State} (hs : MachineInv s = true) (r : HostReg) (v : Word) :
    MachineInv (s.writeReg r v) = true := by
  obtain ⟨hlo, hhi, hbase, hsums, hcode, hrun, hpend, hwf, hseen⟩ := (machineInv_iff s).mp hs
  rcases writeReg_cases s r v with ⟨_, _, e⟩ | ⟨_, _, e⟩ | ⟨_, e⟩ | ⟨_, e⟩ | e <;> rw [e]
  · exact (machineInv_iff _).mpr ⟨hlo, hhi, hbase, hsums, hcode, hrun, hpend, hwf, hseen⟩
  · exact (machineInv_iff _).mpr ⟨hlo, hhi, hbase, hsums, hcode, hrun, .inl rfl, hwf, by simp⟩
  · exact (machineInv_iff _).mpr ⟨hlo, hhi, hbase, hsums, hcode, hrun, hpend, hwf, hseen⟩
  · exact (machineInv_iff _).mpr ⟨hlo, hhi, hbase, hsums, hcode, hrun, hpend, hwf, hseen⟩
  · exact hs

/-- A register read keeps the invariant: the host sees the machine idle only where BUSY = 0 (R198). -/
theorem machineInv_recordRead {s : State} (hs : MachineInv s = true) (r : HostReg) :
    MachineInv (s.recordRead r) = true := by
  obtain ⟨hlo, hhi, hbase, hsums, hcode, hrun, hpend, hwf, hseen⟩ := (machineInv_iff s).mp hs
  refine (machineInv_iff _).mpr ⟨hlo, hhi, hbase, hsums, hcode, hrun, hpend, hwf, ?_⟩
  rintro ⟨hseen', hbusy : s.status.busy = true⟩
  have hshows : s.showsIdle r = false := by simp [State.showsIdle, hbusy]
  exact hseen ⟨by simpa [hshows] using hseen', hbusy⟩

/-- The invariant does not speak of the host's statements. -/
theorem machineInv_host (s : State) (p : List HostStmt) : MachineInv { s with host := p } = MachineInv s := rfl

theorem machineInv_pollStatus {s : State} (hs : MachineInv s = true) : MachineInv s.pollStatus = true :=
  (machineInv_host _ _).trans (machineInv_recordRead hs .status)

/-- A store keeps memory in canonical form, and its address is pending only while a command is in flight. -/
theorem machineInv_hostStore {s : State} (hs : MachineInv s = true) (a : Word) (v : Byte) :
    MachineInv (s.hostStore a v) = true := by
  obtain ⟨hlo, hhi, hbase, hsums, hcode, hrun, hpend, hwf, hseen⟩ := (machineInv_iff s).mp hs
  refine (machineInv_iff _).mpr ⟨hlo, hhi, hbase, hsums, hcode, hrun, ?_, Memory.wf_write hwf a.isLt, hseen⟩
  cases hb : s.status.busy with
  | true => exact .inl hb
  | false => simpa [hb] using hpend

theorem machineInv_recordLoad (s : State) (a : Word) : MachineInv (s.recordLoad a) = MachineInv s := rfl

/-- Reset gives values the invariant admits, whatever was in flight (R185, R186). -/
theorem machineInv_resetDevice {s : State} (hs : MachineInv s = true) : MachineInv s.resetDevice = true := by
  obtain ⟨hlo, hhi, hbase, _, _, _, _, hwf, _⟩ := (machineInv_iff s).mp hs
  have hsums : ∀ c ∈ s.resetDevice.ctx, c.sumsLegal = true := by
    intro c hc
    rw [State.resetDevice_ctx] at hc
    rw [List.eq_of_mem_replicate hc]
    exact sumsLegal_of_not_live rfl
  exact (machineInv_iff _).mpr ⟨by simpa using hlo, by simpa using hhi, hbase, hsums, codeLegal_word .ok,
    by simp [Pipe.atReset], .inr ⟨rfl, rfl⟩, hwf, by simp⟩

/-- Every statement of the host keeps the invariant. -/
theorem machineInv_hostMove {st : HostStmt} {s t : State} (hs : MachineInv s = true) (h : hostMove st s = .next t) :
    MachineInv t = true := by
  rcases hostMove_cases h with rfl | ⟨_, _, v, r, _, _, rfl⟩ | ⟨_, _, r, _, _, rfl⟩ | ⟨_, rfl⟩ | ⟨a, v, _, rfl⟩ | ⟨a, _, rfl⟩ |
    ⟨_, rfl⟩
  · exact hs
  · exact machineInv_writeReg hs r v
  · exact machineInv_recordRead hs r
  · exact machineInv_pollStatus hs
  · exact machineInv_hostStore hs a v
  · rwa [machineInv_recordLoad]
  · exact machineInv_resetDevice hs

/-- The engine's move keeps the invariant: a command, or the end of an illegal word. -/
theorem machineInv_engineMove {s t : State} (hs : MachineInv s = true) (h : engineMove s = .next t) :
    MachineInv t = true := by
  obtain ⟨_, _, _, hsums, _⟩ := (machineInv_iff s).mp hs
  rcases engineMove_cases h with ⟨i, hi⟩ | rfl
  · exact machineInv_exec hs hi
  · exact machineInv_endCommand hs rfl hsums rfl rfl _

/-- Settles O59: by the three kinds of step; the one that writes sums, UPDATE's commit, comes after a planned schedule, which
ends with a RED. -/
theorem invariantKeptByStep : Obligations.InvariantKeptByStep := by
  intro s t hs h
  rcases step_cases s with ⟨_, e⟩ | ⟨_, _, e⟩ | ⟨st, rest, _, _, e⟩ <;> rw [e] at h
  · exact machineInv_engineMove hs h
  · obtain rfl : s = t := by simpa using h
    exact hs
  · exact machineInv_hostMove (machineInv_takeStmt hs rest) h

end Sys2Proof.Machine
end

section
/-! SUPPORT. The frame of the commands, `KeepsRest`, through each operation a command is made of (00_scope.md R12; 20_memory.md R52;
60_exceptions.md R168). -/

open Sys2Proof.Machine

namespace Sys2Proof.Claims

theorem KeepsRest.refl (s : State) : KeepsRest s s := ⟨rfl, rfl, rfl, rfl, fun _ => rfl, rfl, rfl, rfl, rfl⟩

section

variable {s t : State}

theorem KeepsRest.endCommand (h : KeepsRest s t) (c : Code) : KeepsRest s (t.endCommand c) := h

theorem KeepsRest.setResult (h : KeepsRest s t) (v : Word) : KeepsRest s (t.setResult v) := h

theorem KeepsRest.load (h : KeepsRest s t) (c : Context) : KeepsRest s (t.load c) := h

theorem KeepsRest.modifyCtx (h : KeepsRest s t) (k : Nat) (g : Context → Context) : KeepsRest s (t.modifyCtx k g) := by
  unfold KeepsRest at h ⊢
  simpa using h

theorem KeepsRest.runMicros {u : State} {ms : List Micro} (h : KeepsRest s t) (hu : runMicros ms t = some u) :
    KeepsRest s u := by
  rw [State.runMicros_frame hu]
  exact h

theorem KeepsRest.commit (h : KeepsRest s t) (k : Nat) : KeepsRest s (t.commit k) := (h.modifyCtx k _).endCommand .ok

/-- Every command keeps everything outside the context file, RESULT, CODE, BUSY and the command's own registers. -/
theorem keepsRest_exec {i : Instr} (h : exec i s = .next t) : KeepsRest s t := by
  have hs := KeepsRest.refl s
  rcases exec_cases h with ⟨c, rfl⟩ | ⟨_, rfl⟩ | ⟨k, _, _, rfl⟩ | ⟨k, c, u, _, _, _, hu, rfl⟩ | ⟨k, c, _, _, rfl⟩ |
    ⟨k, c, _, _, rfl⟩
  · exact hs.endCommand c
  · exact (hs.setResult _).endCommand _
  · exact ((hs.modifyCtx k _).setResult _).endCommand _
  · exact ((hs.load c).runMicros hu).commit k
  · exact (hs.setResult _).endCommand _
  · exact (hs.modifyCtx k _).endCommand _

/-- Every command ends by `endCommand`, with a status code and BUSY = 0 (R113, R165). -/
theorem exec_eq_endCommand {i : Instr} (h : exec i s = .next t) : ∃ u c, t = State.endCommand u c := by
  rcases exec_cases h with ⟨_, rfl⟩ | ⟨_, rfl⟩ | ⟨_, _, _, rfl⟩ | ⟨_, _, _, _, _, _, _, rfl⟩ | ⟨_, _, _, _, rfl⟩ |
    ⟨_, _, _, _, rfl⟩ <;> exact ⟨_, _, rfl⟩

/-- Only INIT and FINAL write RESULT (R31). -/
theorem exec_result {i : Instr} (h : exec i s = .next t) (hi : ∃ k, i = .update k ∨ i = .free k) :
    t.result = s.result := by
  rcases exec_cases h with ⟨_, rfl⟩ | ⟨rfl, _⟩ | ⟨_, rfl, _⟩ | ⟨k, c, u, _, _, _, hu, rfl⟩ | ⟨_, _, rfl, _⟩ |
    ⟨_, _, _, _, rfl⟩
  · rfl
  · simp at hi
  · simp at hi
  · rw [State.commit_eq, State.endCommand_result, State.modifyCtx_result, State.runMicros_frame hu]; rfl
  · simp at hi
  · simp

/-- FINAL changes no context (R130). -/
theorem exec_final_ctx {k : Nat} (h : exec (.final k) s = .next t) : t.ctx = s.ctx := by
  rcases exec_cases h with ⟨_, rfl⟩ | ⟨hi, _⟩ | ⟨_, hi, _⟩ | ⟨_, _, _, hi, _⟩ | ⟨_, _, _, _, rfl⟩ | ⟨_, _, hi, _⟩
  · rfl
  · cases hi
  · cases hi
  · cases hi
  · rfl
  · cases hi

end

/-- Settles O35: each command is `endCommand` after operations that keep the rest. -/
theorem commandFrame : Obligations.CommandFrame := by
  intro i s t h
  obtain ⟨u, c, hend⟩ := exec_eq_endCommand h
  refine ⟨keepsRest_exec h, by rw [hend]; rfl, by rw [hend]; exact codeLegal_word c, exec_result h, ?_⟩
  rintro ⟨k, rfl⟩
  exact exec_final_ctx h

end Sys2Proof.Claims
end

section
/-! SUPPORT. What a host's read of a register and load of a byte do as a step (10_state.md R25; 20_memory.md R66; 00_scope.md R8). -/

namespace Sys2Proof.Machine

/-- The host's turn with a statement at the head of its list. -/
theorem step_hostMove {s : State} {st : HostStmt} {rest : List HostStmt} (he : s.engineTurn = false)
    (hh : s.host = st :: rest) : step s = hostMove st (s.takeStmt rest) := by
  rw [step_host he, hostTurn_cons hh]

/-- Taking a statement changes no register's value. -/
@[simp] theorem readReg_takeStmt (s : State) (rest : List HostStmt) (r : HostReg) :
    (s.takeStmt rest).readReg r = s.readReg r := by
  cases r <;> rfl

/-- A word read at a register's offset reads that register. -/
theorem hostMove_read_reg (s : State) (r : HostReg) :
    hostMove (.read (s.params.regBase + r.offset) .word) s = .next (s.recordRead r) := by
  simp only [hostMove, decodeAccess_reg]

/-- The STATUS word is BUSY + 2 OVR (R29). -/
theorem status_word_toNat (t : Status) :
    t.word.toNat = (if t.busy then 1 else 0) + (if t.ovr then 2 else 0) := by
  obtain ⟨busy, ovr⟩ := t
  cases busy <;> cases ovr <;> rfl

/-- A load outside the side-effecting regions gives the stored byte (log 22). -/
theorem loadByte_of_no_sideEffects {s : State} {a : Word} (h : s.params.sideEffects.any (·.contains a) = false) :
    s.loadByte a = Memory.read s.mem a.toNat := by
  simp only [State.loadByte, h, Bool.false_eq_true, if_false]

/-- Taking a statement changes no byte a load gives. -/
@[simp] theorem loadByte_takeStmt (s : State) (rest : List HostStmt) (a : Word) :
    (s.takeStmt rest).loadByte a = s.loadByte a := rfl

/-- Settles O48: both statements are served by their record operation, which writes the host's side only. -/
theorem hostReadReturnsRegister : Obligations.HostReadReturnsRegister := by
  refine ⟨fun s r rest he hh => ⟨?_, rfl, rfl, rfl, status_word_toNat s.status, rfl, rfl, rfl, rfl⟩,
    fun s a rest he hh => ?_⟩
  · rw [step_hostMove he hh]
    refine (hostMove_read_reg (s.takeStmt rest) r).trans ?_
    rw [State.recordRead, readReg_takeStmt]
    rfl
  · have hload : step s = .next ((s.takeStmt rest).recordLoad a) := step_hostMove he hh
    rw [State.recordLoad, loadByte_takeStmt] at hload
    exact ⟨⟨_, hload⟩, fun hq => by rw [hload, loadByte_of_no_sideEffects hq]; rfl⟩

end Sys2Proof.Machine
end

section
/-! SUPPORT. A command changes at most the context it names, and never NUM_CTX (00_scope.md R10; 10_state.md R22; 41_commands.md
R135). -/

open Sys2Proof.Claims

namespace Sys2Proof.Machine

namespace State

@[simp] theorem ctxAt_endCommand (s : State) (c : Code) (k : Nat) : (s.endCommand c).ctxAt k = s.ctxAt k := rfl

@[simp] theorem ctxAt_setResult (s : State) (v : Word) (k : Nat) : (s.setResult v).ctxAt k = s.ctxAt k := rfl

@[simp] theorem endCommand_numCtx (s : State) (c : Code) : (s.endCommand c).numCtx = s.numCtx := rfl

theorem numCtx_congr {s t : State} (h : s.ctx = t.ctx) : s.numCtx = t.numCtx := by rw [numCtx, numCtx, h]

/-- The steps of a schedule change no context: the one write to a context is COMMIT's (R144). -/
theorem runMicros_load_ctx {ms : List Micro} {s u : State} {c : Context} (h : runMicros ms (s.load c) = some u) :
    u.ctx = s.ctx := by
  rw [runMicros_frame h]; rfl

/-- COMMIT changes at most the context it names. -/
theorem ctxAt_commit_other (s : State) {h k : Nat} (hk : k ≠ h) : (s.commit h).ctxAt k = s.ctxAt k := by
  rw [commit_eq, ctxAt_endCommand, ctxAt_modifyCtx_other _ _ hk]

@[simp] theorem numCtx_commit (s : State) (h : Nat) : (s.commit h).numCtx = s.numCtx := by
  rw [commit_eq, endCommand_numCtx, modifyCtx_numCtx]

end State

/-- No command changes NUM_CTX (R10). -/
theorem exec_numCtx {i : Instr} {s t : State} (h : exec i s = .next t) : t.numCtx = s.numCtx := by
  rcases exec_cases h with ⟨_, rfl⟩ | ⟨_, rfl⟩ | ⟨k, _, _, rfl⟩ | ⟨k, c, u, _, _, _, hu, rfl⟩ | ⟨_, _, _, _, rfl⟩ |
    ⟨k, _, _, _, rfl⟩
  · rfl
  · rfl
  · simp
  · rw [State.numCtx_commit, State.numCtx_congr (State.runMicros_load_ctx hu)]
  · rfl
  · simp

/-- A command leaves every context it does not name as it was (R22). -/
theorem exec_ctxAt_other {i : Instr} {s t : State} (h : exec i s = .next t) {k : Nat} (hk : namedBy i s ≠ some k) :
    t.ctxAt k = s.ctxAt k := by
  rcases exec_cases h with ⟨_, rfl⟩ | ⟨_, rfl⟩ | ⟨j, rfl, hj, rfl⟩ | ⟨j, c, u, rfl, _, _, hu, rfl⟩ | ⟨_, _, _, _, rfl⟩ |
    ⟨j, _, rfl, _, rfl⟩
  · rfl
  · rfl
  · have hne : k ≠ j := by rintro rfl; exact hk hj
    simp [State.ctxAt_modifyCtx_other s _ hne]
  · have hne : k ≠ j := by rintro rfl; exact hk rfl
    rw [State.ctxAt_commit_other u hne, State.ctxAt_congr (State.runMicros_load_ctx hu)]
  · rfl
  · have hne : k ≠ j := by rintro rfl; exact hk rfl
    simp [State.ctxAt_modifyCtx_other s _ hne]

/-- Settles O34: by the ways a command can end; the operations that write a context write the named one. -/
theorem otherContextsUnchanged : Obligations.OtherContextsUnchanged :=
  fun _ _ _ h => ⟨exec_numCtx h, fun _ hk => exec_ctxAt_other h hk⟩

end Sys2Proof.Machine
end

section
/-! SUPPORT. A change of one context that keeps its live bit commutes with what a command is made of, and with each command that
does not name that context (10_state.md R22, R24; 41_commands.md R136). -/

open Sys2Proof.Claims

namespace Sys2Proof.Machine

section

variable (s : State) (k : Nat) (g : Context → Context)

namespace State

/-- The handle check looks at the named context only. -/
theorem liveCtx_modifyCtx_other {h : Nat} (hh : h ≠ k) : (s.modifyCtx k g).liveCtx h = s.liveCtx h := by
  rw [liveCtx, liveCtx, ctxAt_modifyCtx_other s g hh]

/-- INIT's choice is a search through the live bits (R118). -/
theorem firstFree_eq_findIdx?_live (s : State) :
    s.firstFree = ((s.ctx.map Context.live).findIdx? (! ·)).map (· + 1) := by
  rw [firstFree, List.findIdx?_map]; rfl

theorem map_live_modifyCtx (hg : ∀ c, (g c).live = c.live) :
    (s.modifyCtx k g).ctx.map Context.live = s.ctx.map Context.live := by
  by_cases h0 : k = 0
  · simp [modifyCtx, h0]
  · rw [modifyCtx_ctx s h0]
    apply List.ext_getElem?
    intro i
    rw [List.getElem?_map, List.getElem?_map, List.getElem?_modify]
    cases s.ctx[i]? <;> simp [apply_ite Context.live, hg]

theorem firstFree_modifyCtx (hg : ∀ c, (g c).live = c.live) : (s.modifyCtx k g).firstFree = s.firstFree := by
  simp only [firstFree_eq_findIdx?_live, map_live_modifyCtx s k g hg]

@[simp] theorem nullPointer_modifyCtx : (s.modifyCtx k g).nullPointer = s.nullPointer := by
  simp [nullPointer]

@[simp] theorem bufferWraps_modifyCtx : (s.modifyCtx k g).bufferWraps = s.bufferWraps := by
  simp [bufferWraps]

@[simp] theorem bufferLen_modifyCtx : (s.modifyCtx k g).bufferLen = s.bufferLen := by
  simp [bufferLen]

@[simp] theorem memRead_modifyCtx (a : Word) : (s.modifyCtx k g).memRead a = s.memRead a := by
  simp [memRead, readable, byteAt, isDraw]

theorem readRun_modifyCtx (n : Nat) : ∀ a, (s.modifyCtx k g).readRun n a = s.readRun n a := by
  induction n with
  | zero => intro a; rfl
  | succ n ih => intro a; simp only [readRun, memRead_modifyCtx, ih]

theorem modifyCtx_pipe_comm (p : Pipe) :
    ({ s.modifyCtx k g with pipe := p } : State) = ({ s with pipe := p } : State).modifyCtx k g := by
  unfold modifyCtx; split <;> rfl

theorem load_modifyCtx (c : Context) : (s.modifyCtx k g).load c = (s.load c).modifyCtx k g := by
  unfold modifyCtx; split <;> rfl

theorem run_modifyCtx (m : Micro) : m.run (s.modifyCtx k g) = (m.run s).map (·.modifyCtx k g) := by
  cases m with
  | acc =>
    simp only [Micro.run, acc, modifyCtx_pipe, memRead_modifyCtx, modifyCtx_pipe_comm]
    cases s.memRead s.pipe.ptr <;> rfl
  | red => simp only [Micro.run, red, modifyCtx_pipe, modifyCtx_pipe_comm, Option.map_some]
  | beat n =>
    simp only [Micro.run, beat, modifyCtx_pipe, readRun_modifyCtx, modifyCtx_pipe_comm, Option.map_map]
    rfl

/-- The pipeline reads no context after LOAD. -/
theorem runMicros_modifyCtx (ms : List Micro) :
    ∀ s : State, runMicros ms (s.modifyCtx k g) = (runMicros ms s).map (·.modifyCtx k g) := by
  induction ms with
  | nil => intro s; rfl
  | cons m ms ih =>
    intro s
    simp only [runMicros, run_modifyCtx]
    cases m.run s with
    | none => rfl
    | some u => exact ih u

theorem commit_modifyCtx {h : Nat} (hh : k ≠ h) : (s.modifyCtx k g).commit h = (s.commit h).modifyCtx k g := by
  rw [commit_eq, commit_eq, modifyCtx_pipe, modifyCtx_comm s hh, modifyCtx_endCommand]

end State

end

/-- The outcome with the next state, if there is one, changed by `f`. -/
def mapNext (f : State → State) : Result → Result
  | .next t => .next (f t)
  | .fault r => .fault r
  | .refused r => .refused r

@[simp] theorem mapNext_next (f : State → State) (t : State) : mapNext f (.next t) = .next (f t) := rfl

section

variable {s : State} {k : Nat} {g : Context → Context}

/-- INIT carries another context's change along, when that keeps the live bit. -/
theorem execInit_modifyCtx (hk : s.firstFree ≠ some k) (hg : ∀ c, (g c).live = c.live) :
    execInit (s.modifyCtx k g) = mapNext (·.modifyCtx k g) (execInit s) := by
  simp only [execInit, State.firstFree_modifyCtx s k g hg]
  cases hf : s.firstFree with
  | none => simp [State.modifyCtx_setResult, State.modifyCtx_endCommand]
  | some j =>
    have hne : k ≠ j := by rintro rfl; exact hk hf
    simp [State.modifyCtx_comm s hne, State.modifyCtx_setResult, State.modifyCtx_endCommand]

/-- UPDATE carries another context's change along: its checks, LOAD, the schedule and COMMIT do not see it. -/
theorem execUpdate_modifyCtx {h : Nat} (hne : h ≠ k) :
    execUpdate h (s.modifyCtx k g) = mapNext (·.modifyCtx k g) (execUpdate h s) := by
  simp only [execUpdate, State.liveCtx_modifyCtx_other s k g hne, State.nullPointer_modifyCtx, State.bufferWraps_modifyCtx,
    State.bufferLen_modifyCtx, State.modifyCtx_params, State.load_modifyCtx, State.runMicros_modifyCtx]
  cases s.liveCtx h with
  | none => simp [State.modifyCtx_endCommand]
  | some c =>
    dsimp only
    split_ifs
    · simp [State.modifyCtx_endCommand]
    · simp [State.modifyCtx_endCommand]
    · simp [State.modifyCtx_endCommand]
    · cases runMicros (plan s.bufferLen s.params.schedule 0) (s.load c) with
      | none => simp [State.modifyCtx_endCommand]
      | some u => simp [State.commit_modifyCtx u k g hne.symm]

/-- FINAL carries another context's change along. -/
theorem execFinal_modifyCtx {h : Nat} (hne : h ≠ k) :
    execFinal h (s.modifyCtx k g) = mapNext (·.modifyCtx k g) (execFinal h s) := by
  simp only [execFinal, State.liveCtx_modifyCtx_other s k g hne]
  cases s.liveCtx h <;> simp [State.modifyCtx_setResult, State.modifyCtx_endCommand]

/-- FREE carries another context's change along. -/
theorem execFree_modifyCtx {h : Nat} (hne : h ≠ k) :
    execFree h (s.modifyCtx k g) = mapNext (·.modifyCtx k g) (execFree h s) := by
  simp only [execFree, State.liveCtx_modifyCtx_other s k g hne]
  cases s.liveCtx h <;> simp [State.modifyCtx_comm s hne.symm, State.modifyCtx_endCommand]

/-- A command carries along a change of a context it does not name, when that keeps the live bit. -/
theorem exec_modifyCtx {i : Instr} (hk : namedBy i s ≠ some k) (hg : ∀ c, (g c).live = c.live) :
    exec i (s.modifyCtx k g) = mapNext (·.modifyCtx k g) (exec i s) := by
  cases i with
  | init => exact execInit_modifyCtx hk hg
  | update h => exact execUpdate_modifyCtx fun e => hk (congrArg some e)
  | final h => exact execFinal_modifyCtx fun e => hk (congrArg some e)
  | free h => exact execFree_modifyCtx fun e => hk (congrArg some e)

end

/-- Settles O36: sums are no live bit, so every command carries their change along. -/
theorem otherSumsAreNotObserved : Obligations.OtherSumsAreNotObserved := by
  intro i s t k a b h hk
  rw [exec_modifyCtx (g := withSums a b) hk fun _ => rfl, h, mapNext_next]

end Sys2Proof.Machine
end

section
/-! SUPPORT. What a step does to STATUS: the causes of a change of BUSY and OVR (10_state.md R29; 41_commands.md R111–R114;
70_reset_and_hazards.md R185). -/

open Sys2Proof.Claims

namespace Sys2Proof.Machine

/-- The engine's move ends the command by `Status.finish`: BUSY is cleared, OVR is kept (R113). -/
theorem engineMove_status {s t : State} (h : engineMove s = .next t) : t.status = s.status.finish := by
  rcases engineMove_cases h with ⟨i, hi⟩ | rfl
  · obtain ⟨_, _, hovr, _⟩ := keepsRest_exec hi
    obtain ⟨u, c, rfl⟩ := exec_eq_endCommand hi
    exact congrArg (Status.mk false) hovr
  · rfl

/-- The statements of a host that change STATUS: a CMD write, lost or accepted, and a reset. -/
theorem hostMove_status {st : HostStmt} {s t : State} (h : hostMove st s = .next t) :
    t.status = s.status ∨
      (∃ v, st = .write s.params.regBase .word v ∧
        ((s.status.busy = true ∧ t.status = s.status.overrun) ∨ (s.status.busy = false ∧ t.status = s.status.issue))) ∨
      (st = .reset ∧ t.status = { busy := false, ovr := false }) := by
  rcases hostMove_cases h with rfl | ⟨a, z, v, r, rfl, hr, rfl⟩ | ⟨_, _, _, _, _, rfl⟩ | ⟨_, rfl⟩ | ⟨_, _, _, rfl⟩ |
    ⟨_, _, rfl⟩ | ⟨rfl, rfl⟩
  · exact .inl rfl
  · rcases writeReg_cases s r v with ⟨rfl, hb, e⟩ | ⟨rfl, hb, e⟩ | ⟨_, e⟩ | ⟨_, e⟩ | e <;> rw [e]
    · obtain ⟨rfl, rfl⟩ := decodeAccess_cmd hr
      exact .inr (.inl ⟨v, rfl, .inl ⟨hb, rfl⟩⟩)
    · obtain ⟨rfl, rfl⟩ := decodeAccess_cmd hr
      exact .inr (.inl ⟨v, rfl, .inr ⟨hb, rfl⟩⟩)
    · exact .inl rfl
    · exact .inl rfl
    · exact .inl rfl
  · exact .inl rfl
  · exact .inl rfl
  · exact .inl rfl
  · exact .inl rfl
  · exact .inr (.inr ⟨rfl, rfl⟩)

/-- What a step does to STATUS: the engine's move clears BUSY, a CMD write sets OVR or BUSY, a reset clears both, and every
other step keeps it. -/
theorem step_status {s t : State} (h : step s = .next t) :
    (s.engineTurn = true ∧ t.status = s.status.finish) ∨ t.status = s.status ∨
      (s.engineTurn = false ∧ ∃ v rest, s.host = .write s.params.regBase .word v :: rest ∧
        ((s.status.busy = true ∧ t.status = s.status.overrun) ∨ (s.status.busy = false ∧ t.status = s.status.issue))) ∨
      (s.engineTurn = false ∧ (∃ rest, s.host = .reset :: rest) ∧ t.status = { busy := false, ovr := false }) := by
  rcases step_cases s with ⟨he, e⟩ | ⟨_, _, e⟩ | ⟨st, rest, he, hh, e⟩ <;> rw [e] at h
  · exact .inl ⟨he, engineMove_status h⟩
  · obtain rfl : s = t := by simpa using h
    exact .inr (.inl rfl)
  · rcases hostMove_status h with hs | ⟨v, rfl, hs⟩ | ⟨rfl, hs⟩
    · exact .inr (.inl hs)
    · exact .inr (.inr (.inl ⟨he, v, rest, hh, hs⟩))
    · exact .inr (.inr (.inr ⟨he, ⟨rest, hh⟩, hs⟩))

/-- Settles O45: each change of a flag picks its cause among the four ways a step treats STATUS. -/
theorem flagsChangeOnlyByIssueCompletionOverrunReset :
    Obligations.FlagsChangeOnlyByIssueCompletionOverrunReset := by
  intro s t h
  rcases step_status h with ⟨he, hs⟩ | hs | ⟨he, v, rest, hh, ⟨hb, hs⟩ | ⟨hb, hs⟩⟩ | ⟨he, hh, hs⟩ <;> rw [hs]
  · simp +contextual [he]
  · simp +contextual
  · simp +contextual [he, hb, hh]
  · simp +contextual [hb, hh]
  · simp [he, hh]

end Sys2Proof.Machine
end

section
/-! SUPPORT. What a step keeps: NUM_CTX and the parameters always; CODE, RESULT and the contexts unless a command completes or the
device is reset (10_state.md R30–R32; 00_scope.md R10; 70_reset_and_hazards.md R191). -/

open Sys2Proof.Claims

namespace Sys2Proof.Machine

/-- A register write of the host changes no parameter, no context and neither CODE nor RESULT: an issue writes them at its
completion (R113). -/
theorem writeReg_keeps (s : State) (r : HostReg) (v : Word) :
    (s.writeReg r v).code = s.code ∧ (s.writeReg r v).result = s.result ∧ (s.writeReg r v).ctx = s.ctx ∧
      (s.writeReg r v).params = s.params := by
  rcases writeReg_cases s r v with ⟨_, _, e⟩ | ⟨_, _, e⟩ | ⟨_, e⟩ | ⟨_, e⟩ | e <;> rw [e] <;> exact ⟨rfl, rfl, rfl, rfl⟩

/-- A statement of the host is a reset, or keeps CODE, RESULT, the contexts and the parameters. -/
theorem hostMove_keeps {st : HostStmt} {s t : State} (h : hostMove st s = .next t) :
    (st = .reset ∧ t = s.resetDevice) ∨
      (t.code = s.code ∧ t.result = s.result ∧ t.ctx = s.ctx ∧ t.params = s.params) := by
  rcases hostMove_cases h with rfl | ⟨_, _, v, r, _, _, rfl⟩ | ⟨_, _, _, _, _, rfl⟩ | ⟨_, rfl⟩ | ⟨_, _, _, rfl⟩ |
    ⟨_, _, rfl⟩ | hreset
  · exact .inr ⟨rfl, rfl, rfl, rfl⟩
  · exact .inr (writeReg_keeps s r v)
  · exact .inr ⟨rfl, rfl, rfl, rfl⟩
  · exact .inr ⟨rfl, rfl, rfl, rfl⟩
  · exact .inr ⟨rfl, rfl, rfl, rfl⟩
  · exact .inr ⟨rfl, rfl, rfl, rfl⟩
  · exact .inl hreset

/-- Settles O50: the step is idling or a statement other than reset. -/
theorem resultsChangeOnlyAtCompletion : Obligations.ResultsChangeOnlyAtCompletion := by
  intro s t h he hreset
  rcases step_cases s with ⟨he', _⟩ | ⟨_, _, e⟩ | ⟨st, rest, _, hh, e⟩
  · simp [he] at he'
  · obtain rfl : s = t := by simpa [e] using h
    exact ⟨rfl, rfl, rfl⟩
  · rw [e] at h
    rcases hostMove_keeps h with ⟨rfl, _⟩ | ⟨hcode, hresult, hctx, _⟩
    · exact absurd hh (hreset rest)
    · exact ⟨hcode, hresult, hctx⟩

/-- The engine's move keeps the parameters and the number of contexts. -/
theorem engineMove_params_numCtx {s t : State} (h : engineMove s = .next t) :
    t.params = s.params ∧ t.numCtx = s.numCtx := by
  rcases engineMove_cases h with ⟨i, hi⟩ | rfl
  · obtain ⟨_, _, _, _, _, hparams, _⟩ := keepsRest_exec hi
    exact ⟨hparams, exec_numCtx hi⟩
  · exact ⟨rfl, rfl⟩

/-- A statement of the host, a reset too, keeps the parameters and the number of contexts (log 18). -/
theorem hostMove_params_numCtx {st : HostStmt} {s t : State} (h : hostMove st s = .next t) :
    t.params = s.params ∧ t.numCtx = s.numCtx := by
  rcases hostMove_keeps h with ⟨_, rfl⟩ | ⟨_, _, hctx, hparams⟩
  · exact ⟨rfl, s.resetDevice_numCtx⟩
  · exact ⟨hparams, State.numCtx_congr hctx⟩

/-- Every step keeps the parameters and the number of contexts. -/
theorem step_params_numCtx {s t : State} (h : step s = .next t) : t.params = s.params ∧ t.numCtx = s.numCtx := by
  rcases step_cases s with ⟨_, e⟩ | ⟨_, _, e⟩ | ⟨st, rest, _, _, e⟩ <;> rw [e] at h
  · exact engineMove_params_numCtx h
  · obtain rfl : s = t := by simpa using h
    exact ⟨rfl, rfl⟩
  · exact hostMove_params_numCtx (s := s.takeStmt rest) h

/-- Settles O58: CONFIG reads the number of contexts. -/
theorem parametersAreConstant : Obligations.ParametersAreConstant := by
  intro s t h
  obtain ⟨hparams, hnum⟩ := step_params_numCtx h
  exact ⟨hparams, hnum, congrArg (BitVec.ofNat 32) hnum⟩

end Sys2Proof.Machine
end

section
/-! SUPPORT. A host's word write to a register as a step (10_state.md R25, R27, R28; 20_memory.md R66). -/

namespace Sys2Proof.Machine

/-- The host's turn with a word write at a register's offset writes that register. -/
theorem step_write_reg {s : State} {r : HostReg} {v : Word} {rest : List HostStmt} (he : s.engineTurn = false)
    (hh : s.host = .write (s.params.regBase + r.offset) .word v :: rest) :
    step s = .next ((s.takeStmt rest).writeReg r v) := by
  rw [step_hostMove he hh]
  simp only [hostMove, State.takeStmt_params, decodeAccess_reg]

/-- The read-only and reserved registers ignore a write (R25). -/
theorem writeReg_readOnly (s : State) {r : HostReg} (v : Word)
    (hr : r = .status ∨ r = .code ∨ r = .result ∨ r = .config ∨ r = .reserved) : s.writeReg r v = s := by
  rcases hr with rfl | rfl | rfl | rfl | rfl <;> rfl

/-- Settles O46: the step is the register write, which the register ignores. -/
theorem readOnlyWritesIgnored : Obligations.ReadOnlyWritesIgnored := by
  intro s r v rest he hr hh
  rw [step_write_reg he hh, writeReg_readOnly _ v hr]

/-- Settles O47: the step is the register write; both registers hold what was written. -/
theorem addrAndLenReadBack : Obligations.AddrAndLenReadBack :=
  fun _ _ _ he => ⟨fun hh => ⟨_, step_write_reg (r := .addr) he hh, rfl, rfl⟩,
    fun hh => ⟨_, step_write_reg (r := .len) he hh, rfl, rfl⟩⟩

end Sys2Proof.Machine
end

section
/-! SUPPORT. What UPDATE reads: the context file, the latched pointer and length, the schedule and what MemRead returns. Two states
that agree there give the same context file (41_commands.md R125; 20_memory.md R73, R74). -/

open Sys2Proof.Claims

namespace Sys2Proof.Machine

/-- The two states agree on everything an UPDATE reads. -/
structure SameUpdateInput (s t : State) : Prop where
  ctx : t.ctx = s.ctx
  addr : t.latch.addr = s.latch.addr
  len : t.latch.len = s.latch.len
  schedule : t.params.schedule = s.params.schedule
  memRead : ∀ a, t.memRead a = s.memRead a

section

variable {s t : State}

namespace State

theorem readRun_congr (h : ∀ a, t.memRead a = s.memRead a) (n : Nat) : ∀ a, t.readRun n a = s.readRun n a := by
  induction n with
  | zero => intro a; rfl
  | succ n ih => intro a; simp only [readRun, h, ih]

/-- A step of a schedule sees the working registers and MemRead only. -/
theorem run_congr (h : ∀ a, t.memRead a = s.memRead a) (m : Micro) :
    m.run { t with pipe := s.pipe } = (m.run s).map fun u => { t with pipe := u.pipe } := by
  have hread : ∀ a, ({ t with pipe := s.pipe } : State).memRead a = s.memRead a := h
  cases m with
  | acc =>
    simp only [Micro.run, acc, hread]
    cases s.memRead s.pipe.ptr <;> rfl
  | red => rfl
  | beat n =>
    simp only [Micro.run, beat, readRun_congr hread, Option.map_map]
    rfl

/-- A schedule sees the working registers and MemRead only. -/
theorem runMicros_congr (ms : List Micro) : ∀ {s : State}, (∀ a, t.memRead a = s.memRead a) →
    runMicros ms { t with pipe := s.pipe } = (runMicros ms s).map fun u => { t with pipe := u.pipe } := by
  induction ms with
  | nil => intro s _; rfl
  | cons m ms ih =>
    intro s h
    simp only [runMicros, run_congr h]
    cases hu : m.run s with
    | none => rfl
    | some u =>
      refine ih fun a => ?_
      rw [run_frame hu]
      exact h a

/-- What a change of one context does to the context file depends on the context file only. -/
theorem modifyCtx_ctx_congr (h : t.ctx = s.ctx) (k : Nat) (g : Context → Context) :
    (t.modifyCtx k g).ctx = (s.modifyCtx k g).ctx := by
  unfold modifyCtx; split <;> simp [h]

/-- The contexts COMMIT leaves depend on the contexts before it, W1 and W2 only (R144). -/
theorem commit_ctx_congr (hctx : t.ctx = s.ctx) (hpipe : t.pipe = s.pipe) (k : Nat) :
    (t.commit k).ctx = (s.commit k).ctx := by
  rw [commit_eq, commit_eq, hpipe]
  exact modifyCtx_ctx_congr hctx k _

end State

/-- UPDATEs that read the same leave the same context file. -/
theorem execUpdate_congr (h : SameUpdateInput s t) (k : Nat) :
    ∃ s' t', execUpdate k s = .next s' ∧ execUpdate k t = .next t' ∧ t'.ctx = s'.ctx := by
  have hlive : t.liveCtx k = s.liveCtx k := by rw [State.liveCtx, State.liveCtx, State.ctxAt_congr h.ctx]
  have hload : ∀ c, t.load c = { t with pipe := (s.load c).pipe } := fun c => by
    simp only [State.load, Pipe.loaded, h.addr, h.len]
  have hrun : ∀ ms c, runMicros ms (t.load c) = (runMicros ms (s.load c)).map fun u => { t with pipe := u.pipe } :=
    fun ms c => by rw [hload]; exact State.runMicros_congr ms h.memRead
  have hnull : t.nullPointer = s.nullPointer := by simp only [State.nullPointer, h.addr, h.len]
  have hwraps : t.bufferWraps = s.bufferWraps := by simp only [State.bufferWraps, h.addr, h.len]
  have hlen : t.bufferLen = s.bufferLen := congrArg BitVec.toNat h.len
  simp only [execUpdate, hlive, hnull, hwraps, hlen, h.schedule, hrun]
  cases s.liveCtx k with
  | none => exact ⟨_, _, rfl, rfl, h.ctx⟩
  | some c =>
    dsimp only
    split_ifs
    · exact ⟨_, _, rfl, rfl, h.ctx⟩
    · exact ⟨_, _, rfl, rfl, h.ctx⟩
    · exact ⟨_, _, rfl, rfl, h.ctx⟩
    · cases hu : runMicros (plan s.bufferLen s.params.schedule 0) (s.load c) with
      | none => exact ⟨_, _, rfl, rfl, h.ctx⟩
      | some u =>
        have hctx : t.ctx = u.ctx := h.ctx.trans (State.runMicros_load_ctx hu).symm
        exact ⟨_, _, rfl, rfl, State.commit_ctx_congr (t := { t with pipe := u.pipe }) hctx rfl k⟩

/-- UPDATE changes at most the context it names. -/
theorem execUpdate_ctx {k : Nat} (h : execUpdate k s = .next t) : ∃ g, t.ctx = (s.modifyCtx k g).ctx := by
  have kept : s.ctx = (s.modifyCtx k id).ctx := by
    unfold State.modifyCtx; split <;> simp
  rcases execUpdate_cases k s with ⟨_, e⟩ | ⟨c, _, _, _, ⟨_, e⟩ | ⟨_, _, e⟩ | ⟨u, _, hu, e⟩⟩ <;>
    obtain rfl := Host.Outcome.next.inj (e.symm.trans h)
  · exact ⟨id, kept⟩
  · exact ⟨id, kept⟩
  · exact ⟨id, kept⟩
  · exact ⟨_, State.modifyCtx_ctx_congr (State.runMicros_load_ctx hu) k _⟩

/-- No byte is a draw after a command, if none was before it: the list of raced addresses is given up (R113). -/
theorem noDraws_exec {i : Instr} (h : exec i s = .next t) (hs : NoDraws s) : NoDraws t := by
  obtain ⟨_, _, _, _, _, hparams, _⟩ := keepsRest_exec h
  obtain ⟨u, c, rfl⟩ := exec_eq_endCommand h
  exact ⟨rfl, hparams ▸ hs.2⟩

/-- Where no byte is a draw, MemRead depends on data memory and the parameters only (R60). -/
theorem memRead_congr (hs : NoDraws s) (ht : NoDraws t) (hmem : t.mem = s.mem) (hparams : t.params = s.params) (a : Word) :
    t.memRead a = s.memRead a := by
  simp [State.memRead, State.readable, State.byteAt, State.isDraw, hs.1, hs.2, ht.1, hmem, hparams]

theorem withBuffer_modifyCtx (s : State) (k : Nat) (g : Context → Context) (a n : Word) :
    withBuffer (s.modifyCtx k g) a n = (withBuffer s a n).modifyCtx k g := by
  unfold State.modifyCtx; split <;> rfl

theorem withBuffer_modifyCtx_ctx (s : State) (k : Nat) (g : Context → Context) (a n : Word) :
    ((withBuffer s a n).modifyCtx k g).ctx = (s.modifyCtx k g).ctx := by
  rw [← withBuffer_modifyCtx]; rfl

/-- An UPDATE after a command that changed at most one other context changes the context file as it does without that
command, and carries the change along. -/
theorem execUpdate_after {h k : Nat} {g : Context → Context} {i : Instr} {a m b n : Word} {u : State} (hne : k ≠ h)
    (hs : NoDraws s) (ht : exec i (withBuffer s a m) = .next t) (hctx : t.ctx = (s.modifyCtx h g).ctx)
    (hu : execUpdate k (withBuffer s b n) = .next u) :
    ∃ v, execUpdate k (withBuffer t b n) = .next v ∧ v.ctx = (u.modifyCtx h g).ctx := by
  obtain ⟨_, _, _, hmem, _, hparams, _⟩ := keepsRest_exec ht
  have hsame : SameUpdateInput (withBuffer (s.modifyCtx h g) b n) (withBuffer t b n) :=
    { ctx := hctx
      addr := rfl
      len := rfl
      schedule := by simp [withBuffer, hparams]
      memRead := memRead_congr (by simpa [NoDraws, withBuffer] using hs) (noDraws_exec ht hs : NoDraws t)
        (by simpa [withBuffer] using hmem) (by simpa [withBuffer] using hparams) }
  obtain ⟨u', v, hu', hv, hvu⟩ := execUpdate_congr hsame k
  rw [withBuffer_modifyCtx, execUpdate_modifyCtx hne, hu, mapNext_next] at hu'
  obtain rfl := Host.Outcome.next.inj hu'
  exact ⟨v, hv, hvu⟩

end

/-- Settles O37: each UPDATE is a change of its own context, the same in both orders, and changes of two contexts commute. -/
theorem updatesOfDistinctContextsCommute : Obligations.UpdatesOfDistinctContextsCommute := by
  intro s h k a m b n hne hs
  obtain ⟨t1, ht1⟩ := exec_total (.update h) (withBuffer s a m)
  obtain ⟨u1, hu1⟩ := exec_total (.update k) (withBuffer s b n)
  obtain ⟨f, hf⟩ := execUpdate_ctx ht1
  obtain ⟨g, hg⟩ := execUpdate_ctx hu1
  rw [withBuffer_modifyCtx_ctx] at hf hg
  obtain ⟨t2, ht2, hctx2⟩ := execUpdate_after hne.symm hs ht1 hf hu1
  obtain ⟨u2, hu2, hctxu⟩ := execUpdate_after hne hs hu1 hg ht1
  refine ⟨t1, t2, u1, u2, ht1, ht2, hu1, hu2, ?_⟩
  calc t2.ctx = (u1.modifyCtx h f).ctx := hctx2
    _ = ((s.modifyCtx k g).modifyCtx h f).ctx := State.modifyCtx_ctx_congr hg h f
    _ = ((s.modifyCtx h f).modifyCtx k g).ctx := by rw [State.modifyCtx_comm s hne]
    _ = (t1.modifyCtx k g).ctx := (State.modifyCtx_ctx_congr hf k g).symm
    _ = u2.ctx := hctxu.symm

end Sys2Proof.Machine
end

section
/-! SUPPORT. The bytes of a buffer: where no byte of it is a draw, they are the stored bytes (20_memory.md R60, R61, R67;
70_reset_and_hazards.md R194). -/

open Sys2Proof.Claims

namespace Sys2Proof.Machine

section

variable {s : State}

/-- A buffer inside the address space is read at rising addresses, without truncation (R61, R123). -/
theorem bufferAddr_toNat (h : BufferInSpace s) {i : Nat} (hi : i < s.bufferLen) :
    (s.bufferAddr i).toNat = s.latch.addr.toNat + i := by
  have hspace : s.latch.addr.toNat + s.latch.len.toNat ≤ 4294967296 := h.2
  have hlen : i < s.latch.len.toNat := hi
  rw [State.bufferAddr, BitVec.toNat_add, BitVec.toNat_ofNat]
  omega

theorem inBuffer_bufferAddr (h : BufferInSpace s) {i : Nat} (hi : i < s.bufferLen) :
    s.inBuffer (s.bufferAddr i) = true := by
  have hlen : i < s.latch.len.toNat := hi
  simp only [State.inBuffer, bufferAddr_toNat h hi, Bool.and_eq_true, decide_eq_true_eq]
  omega

theorem byteAt_of_not_draw {a : Word} (h : s.isDraw a = false) : s.byteAt a = Memory.read s.mem a.toNat := by
  simp only [State.byteAt, h, Bool.false_eq_true, if_false]

/-- No byte of a buffer that the host kept still, in no side-effecting region, is a draw (R194). -/
theorem isDraw_bufferAddr (h : BufferInSpace s) (hstill : bufferStill s = true) (hquiet : bufferQuiet s = true) {i : Nat}
    (hi : i < s.bufferLen) : s.isDraw (s.bufferAddr i) = false := by
  have hraced : s.bufferAddr i ∉ s.raced := fun hmem => by
    have hout := List.all_eq_true.mp hstill _ hmem
    simp [inBuffer_bufferAddr h hi] at hout
  have hside : (!s.params.sideEffects.any (·.contains (s.bufferAddr i))) = true :=
    List.all_eq_true.mp hquiet i (List.mem_range.mpr hi)
  rw [State.isDraw, Bool.or_eq_false_iff]
  exact ⟨by simpa using hraced, by simpa using hside⟩

end

/-- Settles O53: no byte of the buffer is a draw, and its addresses do not wrap. -/
theorem bufferBytesAreStored : Obligations.BufferBytesAreStored := by
  intro s h hstill hquiet
  refine List.map_congr_left fun i hi => ?_
  have hi : i < s.bufferLen := List.mem_range.mp hi
  rw [byteAt_of_not_draw (isDraw_bufferAddr h hstill hquiet hi), bufferAddr_toNat h hi]

end Sys2Proof.Machine
end

section
/-! SUPPORT. Data memory under a host store and under a step (20_memory.md R52, R66, R67, R68). -/

open Sys2Proof.Claims

namespace Sys2Proof.Machine

section

variable {s t : State}

/-- While a command is in flight, an address the host stores to is a draw (R67 clause 3). -/
theorem isDraw_hostStore_busy (hb : s.status.busy = true) (a : Word) (v : Byte) : (s.hostStore a v).isDraw a = true := by
  simp [State.isDraw, hb]

/-- With no command in flight, a host store makes no address a draw. -/
theorem isDraw_hostStore_idle (hb : s.status.busy = false) (a : Word) (v : Byte) (b : Word) :
    (s.hostStore a v).isDraw b = s.isDraw b := by
  simp [State.isDraw, hb]

theorem isDraw_hostStore_other {a b : Word} (hab : b ≠ a) (v : Byte) : (s.hostStore a v).isDraw b = s.isDraw b := by
  cases hb : s.status.busy <;> simp [State.isDraw, hb, hab]

/-- A host store leaves what every other address reads as. -/
theorem byteAt_hostStore_other (hwf : Memory.wf s.mem = true) {a b : Word} (hab : b ≠ a) (v : Byte) :
    (s.hostStore a v).byteAt b = s.byteAt b := by
  have hne : b.toNat ≠ a.toNat := fun e => hab (BitVec.eq_of_toNat_eq e)
  rw [State.byteAt, State.byteAt, isDraw_hostStore_other hab, State.hostStore_mem, Memory.read_write hwf, if_neg hne]
  rfl

/-- Settles O54: a store idle adds no draw and reads back; one beside a command makes its own address a draw. -/
theorem hostStoreIsSeenOrDrawn : Obligations.HostStoreIsSeenOrDrawn := by
  intro s a v hwf
  refine ⟨fun hb hd => ?_, fun _ b hab => byteAt_hostStore_other hwf hab v, fun hb => ?_,
    fun _ b hab => byteAt_hostStore_other hwf hab v⟩
  · rw [← isDraw_hostStore_idle hb a v a] at hd
    rw [byteAt_of_not_draw hd, State.hostStore_mem, Memory.read_write hwf, if_pos rfl]
  · rw [State.byteAt, if_pos (isDraw_hostStore_busy hb a v), State.hostStore_draws]

/-- The engine's move writes no data memory (R52). -/
theorem engineMove_mem (h : engineMove s = .next t) : t.mem = s.mem := by
  rcases engineMove_cases h with ⟨i, hi⟩ | rfl
  · obtain ⟨_, _, _, hmem, _⟩ := keepsRest_exec hi
    exact hmem
  · rfl

theorem writeReg_mem (s : State) (r : HostReg) (v : Word) : (s.writeReg r v).mem = s.mem := by
  rcases writeReg_cases s r v with ⟨_, _, e⟩ | ⟨_, _, e⟩ | ⟨_, e⟩ | ⟨_, e⟩ | e <;> simp [e]

/-- Among the host's statements only a store writes data memory. -/
theorem hostMove_mem {st : HostStmt} (h : hostMove st s = .next t) :
    t.mem = s.mem ∨ ∃ a v, st = .store a v ∧ t.mem = Memory.write s.mem a.toNat v := by
  rcases hostMove_cases h with rfl | ⟨_, _, v, r, _, _, rfl⟩ | ⟨_, _, _, _, _, rfl⟩ | ⟨_, rfl⟩ | ⟨a, v, rfl, rfl⟩ |
    ⟨_, _, rfl⟩ | ⟨_, rfl⟩
  · exact .inl rfl
  · exact .inl (writeReg_mem s r v)
  · exact .inl rfl
  · exact .inl rfl
  · exact .inr ⟨a, v, rfl, rfl⟩
  · exact .inl rfl
  · exact .inl rfl

end

/-- Settles O55: the engine's move and idling keep data memory, and of the host's statements only a store writes it. -/
theorem onlyHostStoresChangeMemory : Obligations.OnlyHostStoresChangeMemory := by
  intro s t h
  rcases step_cases s with ⟨_, e⟩ | ⟨_, _, e⟩ | ⟨st, rest, he, hh, e⟩ <;> rw [e] at h
  · exact .inl (engineMove_mem h)
  · obtain rfl : s = t := by simpa using h
    exact .inl rfl
  · rcases hostMove_mem h with hmem | ⟨a, v, rfl, hmem⟩
    · exact .inl hmem
    · refine .inr ⟨a, v, rest, he, hh, hmem, fun hwf b => ?_⟩
      rw [hmem]
      exact Memory.read_write hwf a.toNat b v

end Sys2Proof.Machine
end

section
/-! SUPPORT. The accesses to the register window that are refused (20_memory.md R55, R56). -/

namespace Sys2Proof.Machine

/-- An access that touches the window and is not a word at a 4-byte-aligned offset is a bad one. -/
theorem decodeAccess_bad {base a : Nat} {z : Size} (hlo : a < base + 32) (hhi : base < a + z.bytes)
    (h : z ≠ .word ∨ a < base ∨ (a - base) % 4 ≠ 0) : decodeAccess base a z = .bad := by
  have hword : ¬(z = .word ∧ base ≤ a ∧ (a - base) % 4 = 0) := by
    rintro ⟨hz, hle, halign⟩
    rcases h with h | h | h
    · exact h hz
    · omega
    · exact h halign
  rw [decodeAccess, if_pos ⟨hlo, hhi⟩, if_neg hword]

/-- Settles O49: the access decodes as a bad one, and the host's read and write both refuse it. -/
theorem otherWindowAccessRefused : Obligations.OtherWindowAccessRefused := by
  intro s a z v rest he hlo hhi hbad hh
  have hdecode := decodeAccess_bad hlo hhi hbad
  rcases hh with hh | hh <;> simp only [step_hostMove he hh, hostMove, State.takeStmt_params, hdecode]

end Sys2Proof.Machine
end

section
/-! SUPPORT. The opcode map: what a word decodes to, by the mask and match of the rows (30_encoding.md R75, R77, R80, R82), and the
word the encoder writes for a command (R85). -/

namespace Sys2Proof

@[simp] theorem opcodeOf_init_toNat : (opcodeOf .init).toNat = 1 := rfl
@[simp] theorem opcodeOf_update_toNat (h : Nat) : (opcodeOf (.update h)).toNat = 2 := rfl
@[simp] theorem opcodeOf_final_toNat (h : Nat) : (opcodeOf (.final h)).toNat = 3 := rfl
@[simp] theorem opcodeOf_free_toNat (h : Nat) : (opcodeOf (.free h)).toNat = 4 := rfl

@[simp] theorem handleOf_init : handleOf .init = 0 := rfl
@[simp] theorem handleOf_update (h : Nat) : handleOf (.update h) = h := rfl
@[simp] theorem handleOf_final (h : Nat) : handleOf (.final h) = h := rfl
@[simp] theorem handleOf_free (h : Nat) : handleOf (.free h) = h := rfl

/-- The value of OP fits its 4-bit field (R75, R76). -/
theorem opcodeOf_toNat_lt (i : Instr) : (opcodeOf i).toNat < 16 := by
  cases i <;> simp

/-- A word agrees with a row's match under the mask exactly when both reserved fields are 0 and OP is the row's. -/
theorem and_rowMask_eq_iff (w : Word) {op : Word} (hop : op.toNat < 16) :
    w &&& rowMask = op ↔ resHiField w = 0 ∧ resLoField w = 0 ∧ opField w = op.toNat := by
  rw [← BitVec.toNat_inj, and_rowMask_toNat, resHiField_eq, resLoField_eq, opField_eq]
  omega

/-- The row of a command: a word decodes to it exactly when it agrees with the row's match under the mask and, but for INIT,
HANDLE is the command's handle (R80). -/
theorem decode_eq_instr_iff (w : Word) (i : Instr) :
    decode w = .instr i ↔ w &&& rowMask = opcodeOf i ∧ (i = .init ∨ handleOf i = handleField w) := by
  rw [and_rowMask_eq_iff w (opcodeOf_toNat_lt i)]
  unfold decode
  split_ifs with hres
  · exact iff_of_false (by simp) (by omega)
  · obtain ⟨hhi, hlo⟩ : resHiField w = 0 ∧ resLoField w = 0 := by omega
    rw [hhi, hlo]
    split
    case h_5 _ h1 h2 h3 h4 =>
      simp only [imp_false] at h1 h2 h3 h4
      exact iff_of_false (by simp) (by cases i <;> simp [h1, h2, h3, h4])
    all_goals rename_i hop; cases i <;> simp [hop, eq_comm]

/-- For a command with a handle the row fixes the handle too. -/
theorem decode_eq_handled_iff (w : Word) {i : Instr} (hi : i ≠ .init) :
    decode w = .instr i ↔ w &&& rowMask = opcodeOf i ∧ handleOf i = handleField w := by
  rw [decode_eq_instr_iff, or_iff_right hi]

/-- Every word outside the rows: a reserved field is not 0, or OP is 0 or at least 5 (R80). -/
theorem decode_illegal_iff (w : Word) :
    (∃ why, decode w = .illegal why) ↔ resHiField w ≠ 0 ∨ resLoField w ≠ 0 ∨ opField w = 0 ∨ 5 ≤ opField w := by
  unfold decode
  split_ifs with hres
  · exact iff_of_true ⟨_, rfl⟩ (by omega)
  · split
    case h_5 _ h1 h2 h3 h4 =>
      simp only [imp_false] at h1 h2 h3 h4
      exact iff_of_true ⟨_, rfl⟩ (by omega)
    all_goals exact iff_of_false (by simp) (by omega)

/-- A command is well formed exactly when its handle fits HANDLE; INIT is written with 0 (R77, R85). -/
theorem wellFormed_iff_handleOf_lt (i : Instr) : WellFormed i ↔ handleOf i < 256 := by
  cases i <;> simp [WellFormed]

/-- Every command's encoding lies in its own row. -/
theorem rowMatch (i : Instr) : Laws.RowMatch.Statement i := by
  cases i with
  | init => exact Laws.RowMatch.init
  | update h => exact Laws.RowMatch.update h
  | final h => exact Laws.RowMatch.final h
  | free h => exact Laws.RowMatch.free h

/-- The word of a well-formed command, as the number `h * 256 + OP` (R85). -/
theorem encode_eq_ofNat {i : Instr} (h : WellFormed i) :
    encode i = BitVec.ofNat 32 (handleOf i * 256 + (opcodeOf i).toNat) := by
  rw [← (rowMatch i h).2, BitVec.ofNat_toNat, BitVec.setWidth_eq]

/-- HANDLE of a well-formed command's word is its handle (R77). -/
theorem handleField_encode {i : Instr} (h : WellFormed i) : handleField (encode i) = handleOf i := by
  have hlt := (wellFormed_iff_handleOf_lt i).mp h
  have hop := opcodeOf_toNat_lt i
  rw [handleField_eq, (rowMatch i h).2]
  omega

/-- Settles O2: the word lies in the command's row and HANDLE holds its handle. -/
theorem decodeOfEncode : Obligations.DecodeOfEncode :=
  fun i h => (decode_eq_instr_iff _ i).mpr ⟨(rowMatch i h).1, .inr (handleField_encode h).symm⟩

/-- Settles O3: the rows are `decode_eq_instr_iff` for each command, the rest is `decode_illegal_iff`. -/
theorem opcodeMap : Obligations.OpcodeMap := by
  intro w
  refine ⟨(decode_eq_instr_iff w .init).trans (and_iff_left (.inl rfl)),
    fun h => decode_eq_handled_iff w (i := .update h) (by simp),
    fun h => decode_eq_handled_iff w (i := .final h) (by simp),
    fun h => decode_eq_handled_iff w (i := .free h) (by simp), ?_⟩
  rw [decode_illegal_iff]
  simp only [ne_eq, ← BitVec.toNat_inj]
  rfl

/-- Settles O4: the word's number is made of the fields that `decode_eq_instr_iff` fixes. -/
theorem encodeOfDecode : Obligations.EncodeOfDecode := by
  intro w i hdec
  obtain ⟨hrow, rfl | hhandle⟩ := (decode_eq_instr_iff w i).mp hdec
  · exact ⟨rfl, fun hne => absurd rfl hne⟩
  have hwf : WellFormed i := (wellFormed_iff_handleOf_lt i).mpr (hhandle ▸ handleField_lt w)
  refine ⟨hwf, fun _ => BitVec.eq_of_toNat_eq ?_⟩
  obtain ⟨hhi, hlo, hop⟩ := (and_rowMask_eq_iff w (opcodeOf_toNat_lt i)).mp hrow
  rw [(rowMatch i hwf).2, hhandle, ← hop, handleField_eq, opField_eq]
  rw [resHiField_eq] at hhi
  rw [resLoField_eq] at hlo
  omega

/-- Settles O1: the eleven words and the six encodings are closed values. -/
theorem exampleWordsDecode : Obligations.ExampleWordsDecode := by
  unfold Obligations.ExampleWordsDecode
  decide

end Sys2Proof
end

section
/-! SUPPORT. The pseudo-instructions as register accesses (30_encoding.md R85; 10_state.md R25). -/

namespace Sys2Proof.Machine

/-- Settles O5: each register's offset is R25's, and the word written to CMD is `encode_eq_ofNat`. -/
theorem pseudoInstructionExpansions : Obligations.PseudoInstructionExpansions := by
  intro base h a n hh
  have hupdate := encode_eq_ofNat (i := .update h) ((handleFits_iff h).mpr hh)
  have hfinal := encode_eq_ofNat (i := .final h) ((handleFits_iff h).mpr hh)
  have hfree := encode_eq_ofNat (i := .free h) ((handleFits_iff h).mpr hh)
  refine ⟨rfl, ?_, ?_, ?_⟩
  · rw [pseudoUpdate, hupdate]; rfl
  · rw [pseudoFinal, hfinal]; rfl
  · rw [pseudoFree, hfree]; rfl

end Sys2Proof.Machine
end

section
/-! SUPPORT. The step of an illegal command in flight (41_commands.md R134; 60_exceptions.md R169). -/

open Sys2Proof.Claims

namespace Sys2Proof.Machine

/-- Settles O33: the engine's move is `endCommand` with ILLEGAL_COMMAND. -/
theorem illegalChangesOnlyCode : Obligations.IllegalChangesOnlyCode := by
  intro s why he hdec
  refine ⟨s.endCommand .illegalCommand, ?_, rfl, rfl, ⟨rfl, rfl⟩, (KeepsRest.refl s).endCommand .illegalCommand⟩
  rw [step_engine he, engineMove_illegal hdec]

end Sys2Proof.Machine
end

section
/-! SUPPORT. WAIT, idling and the end of a host program (30_encoding.md R84; 70_reset_and_hazards.md R183, R190, R198). -/

open Sys2Proof.Claims

namespace Sys2Proof.Machine

namespace State

/-- A turn of WAIT while BUSY = 1: STATUS is read and WAIT stays at the head of the list. -/
theorem pollStatus_takeStmt_busy {s : State} {rest : List HostStmt} (hh : s.host = .wait :: rest)
    (hb : s.status.busy = true) :
    (s.takeStmt rest).pollStatus =
      { s with delay := s.delay - 1, hostReads := .reg .status s.status.word :: s.hostReads } := by
  simp [pollStatus, recordRead, takeStmt, readReg, showsIdle, hb, hh]

/-- A turn of WAIT while BUSY = 0: STATUS is read, WAIT is over, and the host has seen the machine idle. -/
theorem pollStatus_takeStmt_idle {s : State} (rest : List HostStmt) (hb : s.status.busy = false) :
    (s.takeStmt rest).pollStatus =
      { s.takeStmt rest with hostReads := .reg .status s.status.word :: s.hostReads, idleSeen := true } := by
  simp [pollStatus, recordRead, takeStmt, readReg, showsIdle, hb]

theorem programEnded_iff (s : State) : s.programEnded = true ↔ s.host = [] ∧ s.idleSeen = true := by
  simp [programEnded]

end State

/-- A register write never makes `idleSeen` true; an issue makes it false (R198). -/
theorem idleSeen_of_writeReg {s : State} {r : HostReg} {v : Word} (h : (s.writeReg r v).idleSeen = true) :
    s.idleSeen = true := by
  rcases writeReg_cases s r v with ⟨_, _, e⟩ | ⟨_, _, e⟩ | ⟨_, e⟩ | ⟨_, e⟩ | e <;> rw [e] at h
  case inr.inl => simp at h
  all_goals exact h

/-- The statements that show the host the machine idle: WAIT and a read of STATUS, while BUSY = 0 (R84, R198). -/
theorem hostMove_idleSeen {st : HostStmt} {s t : State} (h : hostMove st s = .next t) (hs : s.idleSeen = false)
    (ht : t.idleSeen = true) :
    s.status.busy = false ∧ (st = .wait ∨ st = .read (s.params.regBase + 0x0C) .word) := by
  rcases hostMove_cases h with rfl | ⟨_, _, v, r, _, _, rfl⟩ | ⟨a, z, r, rfl, hr, rfl⟩ | ⟨rfl, rfl⟩ | ⟨_, _, _, rfl⟩ |
    ⟨_, _, rfl⟩ | ⟨_, rfl⟩
  · simp [hs] at ht
  · simp [idleSeen_of_writeReg ht] at hs
  · obtain ⟨rfl, hb⟩ : r = .status ∧ s.status.busy = false := by simpa [State.showsIdle, hs] using ht
    obtain ⟨rfl, rfl⟩ := decodeAccess_eq_reg hr
    exact ⟨hb, .inr rfl⟩
  · exact ⟨by simpa [hs] using ht, .inl rfl⟩
  · simp [hs] at ht
  · simp [hs] at ht
  · simp [hs] at ht

/-- The engine's move shows the host nothing. -/
theorem engineMove_idleSeen {s t : State} (h : engineMove s = .next t) : t.idleSeen = s.idleSeen := by
  rcases engineMove_cases h with ⟨i, hi⟩ | rfl
  · obtain ⟨_, _, _, _, _, _, _, _, hidle⟩ := keepsRest_exec hi
    exact hidle
  · rfl

/-- A step that shows the host the machine idle is a WAIT or a read of STATUS, while BUSY = 0 (R198). -/
theorem step_idleSeen {s t : State} (h : step s = .next t) (hs : s.idleSeen = false) (ht : t.idleSeen = true) :
    s.engineTurn = false ∧ s.status.busy = false ∧
      ∃ rest, s.host = .wait :: rest ∨ s.host = .read (s.params.regBase + 0x0C) .word :: rest := by
  rcases step_cases s with ⟨_, e⟩ | ⟨_, _, e⟩ | ⟨st, rest, he, hh, e⟩ <;> rw [e] at h
  · simp [engineMove_idleSeen h, hs] at ht
  · obtain rfl : s = t := by simpa using h
    simp [hs] at ht
  · obtain ⟨hb, rfl | rfl⟩ := hostMove_idleSeen h hs ht
    · exact ⟨he, hb, rest, .inl hh⟩
    · exact ⟨he, hb, rest, .inr hh⟩

/-- Settles O52: WAIT is one poll of STATUS, and only such a read makes `idleSeen` true. -/
theorem waitAndIdle : Obligations.WaitAndIdle := by
  refine ⟨fun s rest he hh => ⟨fun hb => ?_, fun hb => ?_⟩, fun s hb hh => ?_, fun s t => step_idleSeen,
    fun s => ⟨s.programEnded_iff, fun hinv hend => ?_⟩⟩
  · rw [step_hostMove he hh, ← State.pollStatus_takeStmt_busy hh hb]
    rfl
  · rw [step_hostMove he hh, ← State.pollStatus_takeStmt_idle rest hb]
    rfl
  · rw [step_host (engineTurn_idle hb), hostTurn_nil hh]
  · obtain ⟨_, _, _, _, _, _, _, _, hseen⟩ := (machineInv_iff s).mp hinv
    obtain ⟨_, hidle⟩ := s.programEnded_iff.mp hend
    exact Bool.eq_false_iff.mpr fun hb => hseen ⟨hidle, hb⟩

end Sys2Proof.Machine
end

section
/-! SUPPORT. The adder, the per-byte step and the reference fold modulo 0xFFFF, and the layout of the checksum
(40_modular_arithmetic.md R94–R107). -/

namespace Sys2Proof.Machine

/-- A reduced value is canonical, in the spelling of R93's range. -/
theorem red_le (x : Nat) : red x ≤ 0xFFFE := Nat.le_of_lt_succ (red_lt x)

/-- On its domain one conditional subtraction is the whole reduction (R95). -/
theorem csub_eq_red {x : Nat} (hx : x ≤ 0x1FFFD) : csub x = red x := by
  rw [csub_eq, red_eq]
  split
  · rw [Nat.mod_eq_sub_mod ‹_›, Nat.mod_eq_of_lt (by omega)]
  · rw [Nat.mod_eq_of_lt (by omega)]

/-- R96: the operands keep the sum in the domain of `csub`. -/
theorem addmod_eq_red {a b : Nat} (ha : a ≤ 0xFFFF) (hb : b ≤ 0xFFFE) : addmod a b = red (a + b) :=
  csub_eq_red (by omega)

/-- R98: both `addmod` calls of the step are in their domain, from any sums up to the seed. -/
theorem foldByte_eq_red {s1 s2 : Nat} (h1 : s1 ≤ 0xFFFF) (h2 : s2 ≤ 0xFFFF) (b : Byte) :
    foldByte (s1, s2) b = (red (s1 + b.toNat), red (s2 + red (s1 + b.toNat))) := by
  have hb : b.toNat < 256 := b.isLt
  have ht : red (s1 + b.toNat) < 65535 := red_lt _
  simp only [foldByte]
  rw [addmod_eq_red h1 (by omega), addmod_eq_red h2 (by omega)]

/-- The second component of the closed form over one more byte: the new first sum `x` counts once in the step and `n` times in the
rest, and reducing it before that changes nothing (R109). -/
theorem red_weighted_step (s2 x n w : Nat) : red (red (s2 + red x) + n * red x + w) = red (s2 + (n + 1) * x + w) := by
  have hx : red x ≡ x [MOD 65535] := Nat.mod_modEq x 65535
  calc red (s2 + red x) + n * red x + w
      ≡ s2 + x + n * x + w [MOD 65535] :=
        (((Nat.mod_modEq _ _).trans (hx.add_left s2)).add (hx.mul_left n)).add_right w
    _ = s2 + (n + 1) * x + w := by ring

/-- R102, by induction on the bytes after the first. -/
theorem fold_cons_eq_red {s1 s2 : Nat} (h1 : s1 ≤ 0xFFFF) (h2 : s2 ≤ 0xFFFF) (b : Byte) (d : List Byte) :
    fold (s1, s2) (b :: d) =
      (red (s1 + byteSum (b :: d)), red (s2 + (b :: d).length * s1 + weightedSum (b :: d))) := by
  induction d generalizing s1 s2 b with
  | nil =>
    rw [fold_cons, fold_nil, foldByte_eq_red h1 h2]
    simp [red_eq, Nat.add_assoc]
  | cons c d ih =>
    rw [fold_cons, foldByte_eq_red h1 h2, ih (red_lt _).le (red_lt _).le, red_weighted_step]
    refine Prod.ext ?_ (congrArg red ?_)
    · simp only [red_eq, byteSum_cons, Nat.mod_add_mod, Nat.add_assoc]
    · simp only [List.length_cons, weightedSum_cons]
      ring

/-- The same for any non-empty sequence. -/
theorem fold_eq_red {s1 s2 : Nat} {d : List Byte} (h1 : s1 ≤ 0xFFFF) (h2 : s2 ≤ 0xFFFF) (hd : d ≠ []) :
    fold (s1, s2) d = (red (s1 + byteSum d), red (s2 + d.length * s1 + weightedSum d)) := by
  obtain ⟨b, d, rfl⟩ := List.exists_cons_of_ne_nil hd
  exact fold_cons_eq_red h1 h2 b d

/-- The seed's terms of the closed form are multiples of 0xFFFF (R105). -/
theorem fold_seed_eq_fold_zero {d : List Byte} (hd : d ≠ []) : fold (0xFFFF, 0xFFFF) d = fold (0, 0) d := by
  rw [fold_eq_red (Nat.le_refl _) (Nat.le_refl _) hd, fold_eq_red (Nat.zero_le _) (Nat.zero_le _) hd]
  refine Prod.ext ?_ ?_ <;> simp only [red_eq] <;> omega

/-- R103. -/
theorem fold_append (s : Nat × Nat) (d e : List Byte) : fold s (d ++ e) = fold (fold s d) e := by
  induction d generalizing s with
  | nil => rfl
  | cons b d ih => rw [List.cons_append, fold_cons, fold_cons, ih]

/-- The two fields of the checksum do not overlap (R107): it is their concatenation. -/
theorem ck_eq_append (s1 s2 : Half) : ck s1 s2 = s2 ++ s1 := by
  rw [BitVec.append_def, BitVec.shiftLeftZeroExtend_eq, BitVec.setWidth'_eq]
  rfl

theorem ck_toNat (s1 s2 : Half) : (ck s1 s2).toNat = s2.toNat * 65536 + s1.toNat := by
  rw [ck_eq_append, BitVec.toNat_append, ← Nat.shiftLeft_add_eq_or_of_lt s1.isLt, Nat.shiftLeft_eq]

/-- Settles O10: `fold_eq_red`, and the rule's example as closed values. -/
theorem foldClosedForm : Obligations.FoldClosedForm :=
  ⟨fun _ _ _ h1 h2 hd => fold_eq_red h1 h2 hd, by decide⟩

/-- Settles O9: the closed form of a non-empty fold is a pair of reductions. -/
theorem foldRanges : Obligations.FoldRanges := by
  refine ⟨fold_nil, fun s1 s2 d h1 h2 hd => ?_⟩
  rw [fold_eq_red h1 h2 hd]
  exact ⟨red_le _, red_le _⟩

/-- Settles O11, by `fold_append`. -/
theorem foldComposes : Obligations.FoldComposes := fun s d e => (fold_append s d e).symm

/-- Settles O12: `fold_seed_eq_fold_zero`, and the rule's checksums as closed values. -/
theorem seedMattersOnlyForEmpty : Obligations.SeedMattersOnlyForEmpty := by
  refine ⟨fun _ => fold_seed_eq_fold_zero, by decide, by decide, ?_⟩
  rintro s (rfl | rfl)
  · decide
  · decide

/-- Settles O6: `csub_eq_red` on the domain, and closed values just above it. -/
theorem conditionalSubtractorReduces : Obligations.ConditionalSubtractorReduces := by
  refine ⟨fun x hx => ⟨csub_eq_red hx, ?_⟩, by decide, by decide⟩
  rw [csub_eq_red hx]
  exact red_le x

/-- Settles O7, by `addmod_eq_red`. -/
theorem modularAdder : Obligations.ModularAdder := by
  intro a b ha hb
  rw [addmod_eq_red ha hb]
  exact ⟨red_eq _, red_le _⟩

/-- Settles O8, by `foldByte_eq_red`. -/
theorem byteStepClosedForm : Obligations.ByteStepClosedForm := by
  intro s1 s2 b h1 h2
  rw [foldByte_eq_red h1 h2]
  exact ⟨rfl, red_le _, red_le _⟩

/-- Settles O13: the fields of a concatenation, and the seed's checksum as a closed value. -/
theorem checksumLayout : Obligations.ChecksumLayout := by
  refine ⟨fun s1 s2 => ⟨ck_toNat s1 s2, ?_, ?_⟩, by decide⟩
  · rw [ck_eq_append, BitVec.extractLsb'_append_eq_right]
  · rw [ck_eq_append, BitVec.extractLsb'_append_eq_left]

end Sys2Proof.Machine
end

section
/-! SUPPORT. A schedule folds the bytes from PTR on: it stops exactly when one of them is unreadable, and otherwise W1 and W2 stay
within R148's bounds and congruent to the reference fold of those bytes (42_batched_pipeline.md R147, R148, R149, R153, R157). -/

open Sys2Proof.Claims

namespace Sys2Proof.Machine

/-! ### A beat on the working registers -/

@[simp] theorem Pipe.accs_nil (p : Pipe) : p.accs [] = p := rfl
@[simp] theorem Pipe.accs_cons (p : Pipe) (b : Byte) (bs : List Byte) : p.accs (b :: bs) = (p.acc b).accs bs := rfl

theorem ofNat_succ_eq (w n : Nat) : BitVec.ofNat w (n + 1) = 1 + BitVec.ofNat w n := by
  rw [Nat.add_comm, BitVec.ofNat_add]; rfl

theorem Pipe.accs_ptr (p : Pipe) (bs : List Byte) : (p.accs bs).ptr = p.ptr + BitVec.ofNat 32 bs.length := by
  induction bs generalizing p with
  | nil => simp
  | cons b bs ih => rw [accs_cons, ih, acc_ptr, List.length_cons, ofNat_succ_eq, BitVec.add_assoc]

/-- A beat of one more byte is ACC and then the beat of the others. -/
theorem Pipe.beat_cons (p : Pipe) (b : Byte) (bs : List Byte) : p.beat (b :: bs) = (p.acc b).beat bs := by
  have hbyte : b.setWidth 32 = BitVec.ofNat 32 b.toNat := (BitVec.ofNat_toNat 32 b).symm
  simp only [Pipe.beat, Pipe.acc, hbyte, byteSum_cons, weightedSum_cons, List.length_cons, BitVec.ofNat_add b.toNat,
    BitVec.ofNat_add (_ * _), BitVec.ofNat_mul, ofNat_succ_eq]
  congr 1 <;> ring

/-- A beat leaves the working registers as the ACC steps of its bytes do (R153). -/
theorem Pipe.beat_eq_accs (p : Pipe) (bs : List Byte) : p.beat bs = p.accs bs := by
  induction bs generalizing p with
  | nil => simp [Pipe.beat]
  | cons b bs ih => rw [beat_cons, ih, accs_cons]

/-! ### The bytes a schedule reads -/

namespace State

/-- The `k` bytes at rising addresses from `a`. -/
def bytesFrom (s : State) (a : Word) (k : Nat) : List Byte := (List.range k).map fun i => s.byteAt (a + BitVec.ofNat 32 i)

/-- The `k` bytes from address `a` are readable. -/
def ReadableFrom (s : State) (a : Word) (k : Nat) : Prop := ∀ i, i < k → s.readable (a + BitVec.ofNat 32 i) = true

variable (s : State) (a : Word)

@[simp] theorem length_bytesFrom (k : Nat) : (s.bytesFrom a k).length = k := by simp [bytesFrom]

@[simp] theorem bytesFrom_zero : s.bytesFrom a 0 = [] := rfl

@[simp] theorem bytesFrom_one : s.bytesFrom a 1 = [s.byteAt a] := by simp [bytesFrom]

theorem bytesFrom_add (j k : Nat) :
    s.bytesFrom a (j + k) = s.bytesFrom a j ++ s.bytesFrom (a + BitVec.ofNat 32 j) k := by
  simp only [bytesFrom, List.range_add, List.map_append, List.map_map, Function.comp_def, BitVec.ofNat_add, BitVec.add_assoc]

@[simp] theorem readableFrom_zero : s.ReadableFrom a 0 := fun _ h => absurd h (Nat.not_lt_zero _)

@[simp] theorem readableFrom_one : s.ReadableFrom a 1 ↔ s.readable a = true := by
  simp [ReadableFrom]

theorem readableFrom_add (j k : Nat) :
    s.ReadableFrom a (j + k) ↔ s.ReadableFrom a j ∧ s.ReadableFrom (a + BitVec.ofNat 32 j) k := by
  constructor
  · refine fun h => ⟨fun i hi => h i (by omega), fun i hi => ?_⟩
    rw [BitVec.add_assoc, ← BitVec.ofNat_add]
    exact h (j + i) (by omega)
  · rintro ⟨hj, hk⟩ i hi
    rcases Nat.lt_or_ge i j with hlt | hge
    · exact hj i hlt
    · obtain ⟨d, rfl⟩ := Nat.exists_eq_add_of_le hge
      rw [BitVec.ofNat_add, ← BitVec.add_assoc]
      exact hk d (by omega)

end State

/-- The working registers after one step of a schedule that read `bs`. -/
def Pipe.after (p : Pipe) : Micro → List Byte → Pipe
  | .red, _ => p.red
  | .acc, bs => p.accs bs
  | .beat _, bs => p.accs bs

/-- A step moves PTR past the bytes it folds (R142, R143, R153). -/
theorem Pipe.after_ptr (p : Pipe) (m : Micro) {bs : List Byte} (h : bs.length = m.width) :
    (p.after m bs).ptr = p.ptr + BitVec.ofNat 32 m.width := by
  cases m with
  | red => simp [Pipe.after, Micro.width]
  | acc => rw [← h]; exact p.accs_ptr bs
  | beat k => rw [← h]; exact p.accs_ptr bs

namespace State

/-- What a step of a schedule can do: a byte it reads is unreadable and there is no next state, or it folds its bytes from PTR. -/
theorem run_cases (m : Micro) (s : State) :
    (¬s.ReadableFrom s.pipe.ptr m.width ∧ m.run s = none) ∨
      (s.ReadableFrom s.pipe.ptr m.width ∧
        m.run s = some { s with pipe := s.pipe.after m (s.bytesFrom s.pipe.ptr m.width) }) := by
  cases m with
  | red => exact .inr ⟨readableFrom_zero _ _, rfl⟩
  | acc =>
    rcases acc_cases s with ⟨hr, e⟩ | ⟨hr, e⟩
    · exact .inl ⟨by simp [Micro.width, hr], e⟩
    · refine .inr ⟨by simp [Micro.width, hr], e.trans ?_⟩
      rw [Micro.width, bytesFrom_one]; rfl
  | beat k =>
    rcases beat_cases s k with ⟨⟨i, hi, hr⟩, e⟩ | ⟨hr, e⟩
    · exact .inl ⟨fun h => by simpa [hr] using h i hi, e⟩
    · refine .inr ⟨hr, e.trans ?_⟩
      rw [Pipe.beat_eq_accs]; rfl

/-- A step that reads changes neither what is readable nor the bytes. -/
theorem readableFrom_run {m : Micro} {s u : State} (h : m.run s = some u) (a : Word) (k : Nat) :
    u.ReadableFrom a k ↔ s.ReadableFrom a k := by
  rw [run_frame h]; rfl

theorem bytesFrom_run {m : Micro} {s u : State} (h : m.run s = some u) (a : Word) (k : Nat) :
    u.bytesFrom a k = s.bytesFrom a k := by
  rw [run_frame h]; rfl

theorem run_ptr {m : Micro} {s u : State} (h : m.run s = some u) : u.pipe.ptr = s.pipe.ptr + BitVec.ofNat 32 m.width := by
  rcases run_cases m s with ⟨_, e⟩ | ⟨_, e⟩ <;> rw [e] at h
  · cases h
  · obtain rfl := Option.some.inj h
    exact s.pipe.after_ptr m (s.length_bytesFrom _ _)

end State

@[simp] theorem bytesFolded_nil : bytesFolded [] = 0 := rfl
@[simp] theorem bytesFolded_cons (m : Micro) (ms : List Micro) : bytesFolded (m :: ms) = m.width + bytesFolded ms := by
  simp [bytesFolded]

/-- A schedule stops exactly when one of the bytes it folds is unreadable, in an ACC or in a beat (R157). -/
theorem runMicros_eq_none_iff (ms : List Micro) :
    ∀ s : State, runMicros ms s = none ↔ ¬s.ReadableFrom s.pipe.ptr (bytesFolded ms) := by
  induction ms with
  | nil => intro s; simp [runMicros]
  | cons m ms ih =>
    intro s
    rw [bytesFolded_cons, State.readableFrom_add]
    rcases State.run_cases m s with ⟨hr, e⟩ | ⟨hr, e⟩ <;> simp only [runMicros, e]
    · simp [hr]
    · rw [ih, State.run_ptr e, State.readableFrom_run e]
      simp [hr]

/-! ### RUN and REM -/

/-- What an enabled step does to the counts: RED ends the batch, ACC and a beat fold their bytes within N (R142, R143, R153). -/
theorem counts_cases {m : Micro} {run rem : Nat} {c : Nat × Nat} (h : m.counts run rem = some c) :
    (m = .red ∧ c = (0, rem)) ∨
      ((∀ p bs, Pipe.after p m bs = p.accs bs) ∧ m.width ≤ rem ∧ run + m.width ≤ 5552 ∧
        c = (run + m.width, rem - m.width)) := by
  cases m <;> simp only [Micro.counts, Option.ite_none_right_eq_some, Option.some.injEq] at h <;> obtain ⟨hen, rfl⟩ := h
  case red => exact .inl ⟨rfl, rfl⟩
  case acc => exact .inr ⟨fun _ _ => rfl, hen.1, hen.2, rfl⟩
  case beat k => exact .inr ⟨fun _ _ => rfl, hen.2.1, hen.2.2, rfl⟩

/-- The bytes a schedule folds are those REM counts down (R146). -/
theorem countsAfter_bytesFolded {ms : List Micro} : ∀ {run rem run' rem' : Nat},
    countsAfter ms run rem = some (run', rem') → bytesFolded ms + rem' = rem := by
  induction ms with
  | nil => intro run rem run' rem' h; simp at h; simp [h]
  | cons m ms ih =>
    intro run rem run' rem' h
    obtain ⟨c, hc, h⟩ := countsAfter_cons.mp h
    have hms := ih h
    rw [bytesFolded_cons]
    rcases counts_cases hc with ⟨rfl, rfl⟩ | ⟨_, hle, _, rfl⟩
    · simpa [Micro.width] using hms
    · simp only at hms; omega

/-- The planned schedule folds the whole buffer. -/
theorem bytesFolded_plan (n : Nat) (preferred : List Micro) : bytesFolded (plan n preferred 0) = n :=
  countsAfter_bytesFolded (countsAfter_plan preferred (Nat.zero_le _))

/-! ### W1 and W2 -/

/-- `run` bytes after a reduction the working registers are within R148's bounds and congruent to the sums `x` (R147). -/
structure Pipe.Holds (p : Pipe) (run : Nat) (x : Nat × Nat) : Prop where
  w1_le : p.w1.toNat ≤ 0xFFFF + 255 * run
  w2_le : 2 * p.w2.toNat ≤ 2 * 0xFFFF * (run + 1) + 255 * (run * (run + 1))
  sum1_le : x.1 ≤ 0xFFFF
  sum2_le : x.2 ≤ 0xFFFF
  w1_mod : p.w1.toNat ≡ x.1 [MOD 65535]
  w2_mod : p.w2.toNat ≡ x.2 [MOD 65535]

/-- LOAD: the sums of the context themselves (R141). -/
theorem Pipe.holds_loaded (c : Context) (l : Latch) : (Pipe.loaded c l).Holds 0 c.pair := by
  have h1 := c.sum1.isLt
  have h2 := c.sum2.isLt
  have e1 : (c.sum1.setWidth 32).toNat = c.sum1.toNat := BitVec.toNat_setWidth_of_le (by decide)
  have e2 : (c.sum2.setWidth 32).toNat = c.sum2.toNat := BitVec.toNat_setWidth_of_le (by decide)
  constructor <;> simp only [Pipe.loaded, Context.pair, e1, e2]
  case w1_mod => rfl
  case w2_mod => rfl
  all_goals omega

/-- RED keeps the congruence and starts a new batch (R143). -/
theorem Pipe.Holds.red {p : Pipe} {run : Nat} {x : Nat × Nat} (h : p.Holds run x) : p.red.Holds 0 x := by
  obtain ⟨_, _, hx1, hx2, hm1, hm2⟩ := h
  obtain ⟨h1, h2⟩ := p.red_reduced
  refine ⟨by omega, by omega, hx1, hx2, ?_, ?_⟩
  · rw [red_w1_toNat]; exact (Nat.mod_modEq _ _).trans hm1
  · rw [red_w2_toNat]; exact (Nat.mod_modEq _ _).trans hm2

/-- ACC within N: both sums are exact, so the congruence follows the per-byte step (R148, R98). -/
theorem Pipe.Holds.acc {p : Pipe} {run : Nat} {x : Nat × Nat} (h : p.Holds run x) (hrun : run < 5552) (b : Byte) :
    (p.acc b).Holds (run + 1) (foldByte x b) := by
  obtain ⟨hw1, hw2, hx1, hx2, hm1, hm2⟩ := h
  have hb : b.toNat < 256 := b.isLt
  have hsq : run * (run + 1) ≤ 5551 * 5552 := Nat.mul_le_mul (by omega) (by omega)
  have e1 : (p.acc b).w1.toNat = p.w1.toNat + b.toNat := acc_w1_toNat (by omega)
  have e2 : (p.acc b).w2.toNat = p.w2.toNat + (p.w1.toNat + b.toNat) := acc_w2_toNat (by omega)
  have hm1' : p.w1.toNat + b.toNat ≡ Machine.red (x.1 + b.toNat) [MOD 65535] :=
    (hm1.add_right _).trans (Nat.mod_modEq _ _).symm
  have hstep : (run + 1) * (run + 1 + 1) = run * (run + 1) + 2 * (run + 1) := by ring
  obtain ⟨s1, s2⟩ := x
  rw [foldByte_eq_red hx1 hx2]
  refine ⟨?_, ?_, (red_lt _).le, (red_lt _).le, ?_, ?_⟩
  · rw [e1]; omega
  · rw [e2, hstep]; omega
  · rw [e1]; exact hm1'
  · rw [e2]; exact (hm2.add hm1').trans (Nat.mod_modEq _ _).symm

/-- The same for the ACC steps of a list of bytes. -/
theorem Pipe.Holds.accs {bs : List Byte} : ∀ {p : Pipe} {run : Nat} {x : Nat × Nat}, p.Holds run x →
    run + bs.length ≤ 5552 → (p.accs bs).Holds (run + bs.length) (fold x bs) := by
  induction bs with
  | nil => intro p run x h _; exact h
  | cons b bs ih =>
    intro p run x h hrun
    rw [List.length_cons] at hrun ⊢
    rw [accs_cons, fold_cons, Nat.add_comm bs.length, ← Nat.add_assoc]
    exact ih (h.acc (by omega) b) (by omega)

/-- An enabled step that reads folds its bytes. -/
theorem run_holds {m : Micro} {s u : State} {run rem : Nat} {c x : Nat × Nat} (hc : m.counts run rem = some c)
    (hu : m.run s = some u) (h : s.pipe.Holds run x) :
    u.pipe.Holds c.1 (fold x (s.bytesFrom s.pipe.ptr m.width)) := by
  rcases State.run_cases m s with ⟨_, e⟩ | ⟨_, e⟩ <;> rw [e] at hu
  · cases hu
  · obtain rfl := Option.some.inj hu
    rcases counts_cases hc with ⟨rfl, rfl⟩ | ⟨hafter, _, hrun, rfl⟩
    · exact h.red
    · simp only [hafter]
      have hlen := s.length_bytesFrom s.pipe.ptr m.width
      have hacc := h.accs (bs := s.bytesFrom s.pipe.ptr m.width) (by omega)
      rwa [hlen] at hacc

/-- Enabled steps that read fold the bytes from PTR on (R147, R148). -/
theorem runMicros_holds {ms : List Micro} : ∀ {s t : State} {run rem run' rem' : Nat} {x : Nat × Nat},
    countsAfter ms run rem = some (run', rem') → runMicros ms s = some t → s.pipe.Holds run x →
      t.pipe.Holds run' (fold x (s.bytesFrom s.pipe.ptr (bytesFolded ms))) := by
  induction ms with
  | nil =>
    intro s t run rem run' rem' x hc hr h
    obtain ⟨rfl, rfl⟩ : run = run' ∧ rem = rem' := by simpa using hc
    obtain rfl : s = t := by simpa [runMicros] using hr
    exact h
  | cons m ms ih =>
    intro s t run rem run' rem' x hc hr h
    obtain ⟨c, hm, hc⟩ := countsAfter_cons.mp hc
    obtain ⟨u, hu, hr⟩ := State.runMicros_cons.mp hr
    have hrest := ih hc hr (run_holds hm hu h)
    rwa [State.run_ptr hu, State.bytesFrom_run hu, ← fold_append, ← State.bytesFrom_add, ← bytesFolded_cons] at hrest

end Sys2Proof.Machine
end

section
/-! SUPPORT. Each command's answer, once per case of its checks (41_commands.md R118–R132), for handles and buffers as the
statements describe them. -/

open Sys2Proof.Claims

namespace Sys2Proof.Machine

section

variable {s : State} {h : Nat} {c : Context}

/-! ### Handles -/

namespace State

theorem liveCtx_of_liveHandle (hl : LiveHandle s h c) : s.liveCtx h = some c := by
  obtain ⟨h1, hc, hlive⟩ := hl
  exact liveCtx_eq_some_iff.mpr ⟨ctxAt_eq_some_iff.mpr ⟨Nat.one_le_iff_ne_zero.mp h1, hc⟩, hlive⟩

theorem liveCtx_of_badHandle (hb : BadHandle s h) : s.liveCtx h = none := by
  refine liveCtx_eq_none_iff.mpr fun d hd => ?_
  obtain ⟨h0, hd⟩ := ctxAt_eq_some_iff.mp hd
  rcases hb with rfl | hrange | ⟨c, hc, hlive⟩
  · exact absurd rfl h0
  · have hlt : h - 1 < s.numCtx := (List.getElem?_eq_some_iff.mp hd).1
    omega
  · obtain rfl : c = d := Option.some.inj (hc.symm.trans hd)
    exact hlive

/-- Changing the context of a handle in range is setting its entry. -/
theorem modifyCtx_ctx_eq_set (hl : LiveHandle s h c) (g : Context → Context) :
    (s.modifyCtx h g).ctx = s.ctx.set (h - 1) (g c) := by
  obtain ⟨h1, hc, _⟩ := hl
  rw [modifyCtx_ctx s (Nat.one_le_iff_ne_zero.mp h1), modify_eq_set hc]

end State

/-- A live handle whose context was set to `d` names `d`. -/
theorem getElem?_set_of_liveHandle (hl : LiveHandle s h c) (d : Context) : (s.ctx.set (h - 1) d)[h - 1]? = some d := by
  obtain ⟨_, hc, _⟩ := hl
  exact List.getElem?_set_self (List.getElem?_eq_some_iff.mp hc).1

/-! ### INIT, FINAL and FREE -/

theorem exec_init_none (hf : s.firstFree = none) :
    exec .init s = .next ((s.setResult 0).endCommand .allocationFailure) := by
  simp [exec, execInit, hf]

theorem exec_init_some (hf : s.firstFree = some h) :
    exec .init s = .next (((s.modifyCtx h fun _ => seededContext).setResult (BitVec.ofNat 32 h)).endCommand .ok) := by
  simp [exec, execInit, hf]

theorem exec_final_live (hl : s.liveCtx h = some c) :
    exec (.final h) s = .next ((s.setResult (ck c.sum1 c.sum2)).endCommand .ok) := by
  simp [exec, execFinal, hl]

theorem exec_final_none (hl : s.liveCtx h = none) : exec (.final h) s = .next (s.endCommand .invalidArgument) := by
  simp [exec, execFinal, hl]

theorem exec_free_live (hl : s.liveCtx h = some c) :
    exec (.free h) s = .next ((s.modifyCtx h fun c => { c with live := false }).endCommand .ok) := by
  simp [exec, execFree, hl]

theorem exec_free_none (hl : s.liveCtx h = none) : exec (.free h) s = .next (s.endCommand .ok) := by
  simp [exec, execFree, hl]

/-! ### UPDATE -/

theorem nullPointer_iff : s.nullPointer = true ↔ s.latch.addr = 0 ∧ s.latch.len ≠ 0 := by
  simp [State.nullPointer, Config.nullAddr]

theorem bufferWraps_iff : s.bufferWraps = true ↔ 2 ^ 32 < s.latch.addr.toNat + s.latch.len.toNat := by
  exact decide_eq_true_iff

/-- A buffer inside the address space passes both checks (R122, R123). -/
theorem bufferInSpace_iff : BufferInSpace s ↔ s.nullPointer = false ∧ s.bufferWraps = false := by
  rw [BufferInSpace, ← nullPointer_iff, ← Nat.not_lt, ← bufferWraps_iff, Bool.not_eq_true, Bool.not_eq_true]

/-- An empty buffer passes both checks, whatever its address (R124). -/
theorem bufferInSpace_of_len_zero (h0 : s.latch.len = 0) : BufferInSpace s := by
  have haddr := s.latch.addr.isLt
  exact ⟨fun hnull => hnull.2 h0, by rw [h0]; exact haddr.le⟩

/-- UPDATE turned away by one of its checks (R121, R122, R123). -/
theorem exec_update_rejected (hbad : s.liveCtx h = none ∨ s.nullPointer = true ∨ s.bufferWraps = true) :
    exec (.update h) s = .next (s.endCommand .invalidArgument) := by
  rcases execUpdate_cases h s with ⟨_, e⟩ | ⟨c, hl, hnull, hwraps, _⟩
  · exact e
  · simp [hl, hnull, hwraps] at hbad

/-- UPDATE of an empty buffer does nothing (R124). -/
theorem exec_update_empty (hl : s.liveCtx h = some c) (h0 : s.latch.len = 0) :
    exec (.update h) s = .next (s.endCommand .ok) := by
  obtain ⟨hnull, hwraps⟩ := bufferInSpace_iff.mp (bufferInSpace_of_len_zero h0)
  simp [exec, execUpdate, hl, hnull, hwraps, State.bufferLen, h0]

/-- UPDATE of a buffer with an unreadable byte: whatever the schedule, it folds that byte and stops (R126, R157). -/
theorem exec_update_unreadable (hl : s.liveCtx h = some c) (hspace : BufferInSpace s) (h0 : s.bufferLen ≠ 0)
    (hr : ¬AllReadable s) : exec (.update h) s = .next (s.endCommand .busError) := by
  obtain ⟨hnull, hwraps⟩ := bufferInSpace_iff.mp hspace
  have hrun : runMicros (plan s.bufferLen s.params.schedule 0) (s.load c) = none := by
    rw [runMicros_eq_none_iff, bytesFolded_plan]; exact hr
  simp [exec, execUpdate, hl, hnull, hwraps, h0, hrun]

/-- UPDATE whose schedule ran to its end commits (R125). -/
theorem exec_update_commit {t : State} (hl : s.liveCtx h = some c) (hspace : BufferInSpace s) (h0 : s.bufferLen ≠ 0)
    (hrun : runMicros (plan s.bufferLen s.params.schedule 0) (s.load c) = some t) :
    exec (.update h) s = .next (t.commit h) := by
  obtain ⟨hnull, hwraps⟩ := bufferInSpace_iff.mp hspace
  simp [exec, execUpdate, hl, hnull, hwraps, h0, hrun]

end

end Sys2Proof.Machine
end

section
/-! SUPPORT. What UPDATE commits: the fold of the buffer's bytes, by every permitted schedule (41_commands.md R125;
42_batched_pipeline.md R144, R149). -/

open Sys2Proof.Claims

namespace Sys2Proof.Machine

/-- A context with the bytes `d` folded into its sums. -/
def Context.folded (c : Context) (d : List Byte) : Context :=
  { c with sum1 := BitVec.ofNat 16 (fold c.pair d).1, sum2 := BitVec.ofNat 16 (fold c.pair d).2 }

theorem Context.pair_le (c : Context) : c.pair.1 ≤ 0xFFFF ∧ c.pair.2 ≤ 0xFFFF :=
  ⟨Nat.le_of_lt_succ c.sum1.isLt, Nat.le_of_lt_succ c.sum2.isLt⟩

/-- Folding a non-empty sequence into a context gives canonical sums (R101). -/
theorem Context.fold_pair_lt (c : Context) {d : List Byte} (hd : d ≠ []) :
    (fold c.pair d).1 < 65535 ∧ (fold c.pair d).2 < 65535 := by
  obtain ⟨h1, h2⟩ := c.pair_le
  rw [← Prod.mk.eta (p := c.pair), fold_eq_red h1 h2 hd]
  exact ⟨red_lt _, red_lt _⟩

@[simp] theorem Context.folded_nil (c : Context) : c.folded [] = c := by
  simp [Context.folded, Context.pair]

/-- The folded sums fit their 16 bits. -/
theorem Context.pair_folded (c : Context) (d : List Byte) : (c.folded d).pair = fold c.pair d := by
  by_cases hd : d = []
  · rw [hd, folded_nil, fold_nil]
  · obtain ⟨h1, h2⟩ := c.fold_pair_lt hd
    simp only [Context.pair, Context.folded, BitVec.toNat_ofNat] at h1 h2 ⊢
    rw [Nat.mod_eq_of_lt (by omega), Nat.mod_eq_of_lt (by omega)]

/-- Folding in two pieces (R103, R127). -/
theorem Context.folded_append (c : Context) (d e : List Byte) : c.folded (d ++ e) = (c.folded d).folded e := by
  rw [Context.folded, Context.folded, pair_folded, fold_append]
  rfl

/-- Reduced working registers congruent to canonical sums hold those sums. -/
theorem Pipe.Holds.toNat_eq {p : Pipe} {run : Nat} {x : Nat × Nat} (h : p.Holds run x) (hp : p.Reduced)
    (hx : x.1 < 65535 ∧ x.2 < 65535) : p.w1.toNat = x.1 ∧ p.w2.toNat = x.2 :=
  ⟨h.w1_mod.eq_of_lt_of_lt hp.1 hx.1, h.w2_mod.eq_of_lt_of_lt hp.2 hx.2⟩

/-- COMMIT from such working registers writes their sums (R144). -/
theorem commit_ctx_eq_set {s t : State} {h : Nat} {c : Context} {x : Nat × Nat} (hl : LiveHandle s h c) (hctx : t.ctx = s.ctx)
    (hw : t.pipe.w1.toNat = x.1 ∧ t.pipe.w2.toNat = x.2) :
    (t.commit h).ctx = s.ctx.set (h - 1) { c with sum1 := BitVec.ofNat 16 x.1, sum2 := BitVec.ofNat 16 x.2 } := by
  have hlt : LiveHandle t h c := by rwa [LiveHandle, hctx]
  rw [State.commit_eq, State.endCommand_ctx, State.modifyCtx_ctx_eq_set hlt, hctx, ← hw.1, ← hw.2, BitVec.ofNat_toNat,
    BitVec.ofNat_toNat]

/-- Every permitted schedule of a readable, non-empty buffer runs to its end and commits the fold of the buffer's bytes (R149). -/
theorem runMicros_commit_folded {s : State} {h : Nat} {c : Context} {ms : List Micro} (hl : LiveHandle s h c)
    (hlen : s.bufferLen ≠ 0) (hr : AllReadable s) (hms : countsAfter ms 0 s.bufferLen = some (0, 0)) :
    ∃ t, runMicros ms (s.load c) = some t ∧ (t.commit h).ctx = s.ctx.set (h - 1) (c.folded s.bufferBytes) := by
  have hfolded : bytesFolded ms = s.bufferLen := countsAfter_bytesFolded hms
  have hrun : runMicros ms (s.load c) ≠ none := by
    rw [Ne, runMicros_eq_none_iff, hfolded, not_not]; exact hr
  obtain ⟨t, ht⟩ := Option.ne_none_iff_exists'.mp hrun
  have hholds := runMicros_holds hms ht (Pipe.holds_loaded c s.latch)
  rw [hfolded] at hholds
  have hne : s.bufferBytes ≠ [] := by simp [State.bufferBytes, hlen]
  have hreduced : t.pipe.Reduced := runMicros_reduced hms ht fun _ h0 => absurd h0 hlen
  exact ⟨t, ht, commit_ctx_eq_set hl (State.runMicros_load_ctx ht) (hholds.toNat_eq hreduced (c.fold_pair_lt hne))⟩

/-- UPDATE of a readable buffer inside the address space folds its bytes into the context, also when there are none (R124, R125). -/
theorem exec_update_folded {s : State} {h : Nat} {c : Context} (hl : LiveHandle s h c) (hspace : BufferInSpace s)
    (hr : AllReadable s) :
    ∃ t, exec (.update h) s = .next t ∧ t.ctx = s.ctx.set (h - 1) (c.folded s.bufferBytes) ∧ t.code = 0 := by
  have hlive := State.liveCtx_of_liveHandle hl
  by_cases hlen : s.bufferLen = 0
  · have h0 : s.latch.len = 0 := BitVec.eq_of_toNat_eq hlen
    have hempty : s.bufferBytes = [] := by simp [State.bufferBytes, hlen]
    obtain ⟨_, hc, _⟩ := hl
    obtain ⟨_, rfl⟩ := List.getElem?_eq_some_iff.mp hc
    refine ⟨_, exec_update_empty hlive h0, ?_, rfl⟩
    rw [hempty, Context.folded_nil, List.set_getElem_self]; rfl
  · obtain ⟨t, ht, hctx⟩ := runMicros_commit_folded hl hlen hr (countsAfter_plan s.params.schedule (Nat.zero_le _))
    exact ⟨_, exec_update_commit hlive hspace hlen ht, hctx, rfl⟩

end Sys2Proof.Machine
end

section
/-! SUPPORT. The statements about each command: its effect, its code and its frame (41_commands.md R118–R133). -/

open Sys2Proof.Claims

namespace Sys2Proof.Machine

/-- Settles O25: the planned schedule is permitted, so its commit is the fold of the bytes. -/
theorem updateCommitsReferenceFold : Obligations.UpdateCommitsReferenceFold := by
  intro s h c hl hspace _ hr
  obtain ⟨t, ht, hctx, hcode⟩ := exec_update_folded hl hspace hr
  obtain ⟨_, hbusy, _, hresult, _⟩ := commandFrame _ _ _ ht
  obtain ⟨_, _, hlive⟩ := hl
  rw [Context.folded, hlive] at hctx
  exact ⟨t, ht, hctx, hresult ⟨h, .inl rfl⟩, ⟨hcode, hbusy⟩, keepsRest_exec ht⟩

/-- Settles O28: the planned schedule folds every byte of the buffer, so it meets the unreadable one. -/
theorem updateBusError : Obligations.UpdateBusError := by
  intro s h c i hl hspace hi hr
  have hlen : s.bufferLen ≠ 0 := Nat.ne_zero_of_lt hi
  have hunreadable : ¬AllReadable s := fun hall => by simpa [hr] using hall i hi
  have ht := exec_update_unreadable (State.liveCtx_of_liveHandle hl) hspace hlen hunreadable
  exact ⟨_, ht, rfl, rfl, ⟨rfl, rfl⟩, keepsRest_exec ht⟩

/-- Settles O26: each premise fails one of the three checks. -/
theorem updateInvalidArgument : Obligations.UpdateInvalidArgument := by
  intro s h hbad
  have hcheck : s.liveCtx h = none ∨ s.nullPointer = true ∨ s.bufferWraps = true :=
    hbad.imp State.liveCtx_of_badHandle (Or.imp nullPointer_iff.mpr bufferWraps_iff.mpr)
  have ht := exec_update_rejected hcheck
  exact ⟨_, ht, rfl, rfl, ⟨rfl, rfl⟩, keepsRest_exec ht⟩

/-- Settles O27, by `exec_update_empty`. -/
theorem updateOfNothing : Obligations.UpdateOfNothing := by
  intro s h c hl h0
  have ht := exec_update_empty (State.liveCtx_of_liveHandle hl) h0
  exact ⟨_, ht, rfl, rfl, ⟨rfl, rfl⟩, keepsRest_exec ht⟩

/-- Settles O23: the search finds the lowest context that is not live, and its handle fits RESULT. -/
theorem initSeedsLowestFree : Obligations.InitSeedsLowestFree := by
  intro s i c hnum hc hfree hlow
  have hfirst : s.firstFree = some (i + 1) := State.firstFree_eq_some_iff.mpr ⟨i, rfl, c, hc, hfree, fun j hj d => hlow j d hj⟩
  have hlt : i < s.numCtx := (List.getElem?_eq_some_iff.mp hc).1
  have ht := exec_init_some hfirst
  refine ⟨_, ht, ?_, ?_, ⟨rfl, rfl⟩, keepsRest_exec ht⟩
  · rw [State.endCommand_ctx, State.setResult_ctx, State.modifyCtx_ctx s (Nat.add_one_ne_zero i), Nat.add_sub_cancel,
      State.modify_eq_set hc]
    rfl
  · rw [State.endCommand_result, State.setResult_result, BitVec.toNat_ofNat, Nat.mod_eq_of_lt (by omega)]

/-- Settles O24: the search finds no context. -/
theorem initAllocationFailure : Obligations.InitAllocationFailure := by
  intro s hall
  have ht := exec_init_none (State.firstFree_eq_none_iff.mpr hall)
  exact ⟨_, ht, rfl, rfl, ⟨rfl, rfl⟩, keepsRest_exec ht⟩

/-- Settles O29: RESULT is the checksum, laid out as `ck_toNat` says. -/
theorem finalReturnsChecksum : Obligations.FinalReturnsChecksum := by
  intro s h c hl
  have ht := exec_final_live (State.liveCtx_of_liveHandle hl)
  exact ⟨_, ht, rfl, ck_toNat c.sum1 c.sum2, ⟨rfl, rfl⟩, keepsRest_exec ht⟩

/-- Settles O30: the handle check fails. -/
theorem finalInvalidArgument : Obligations.FinalInvalidArgument := by
  intro s h hb
  have ht := exec_final_none (State.liveCtx_of_badHandle hb)
  exact ⟨_, ht, rfl, rfl, ⟨rfl, rfl⟩, keepsRest_exec ht⟩

/-- Settles O31: FREE sets the context's entry. -/
theorem freeReleases : Obligations.FreeReleases := by
  intro s h c hl
  have ht := exec_free_live (State.liveCtx_of_liveHandle hl)
  refine ⟨_, ht, ?_, ?_, ⟨rfl, rfl⟩, keepsRest_exec ht⟩
  · rw [State.endCommand_ctx, State.modifyCtx_ctx_eq_set hl]
  · rw [State.endCommand_result, State.modifyCtx_result]

/-- Settles O32: the handle names no live context, so FREE only completes. -/
theorem freeOfOtherIsNoOp : Obligations.FreeOfOtherIsNoOp := by
  intro s h hb
  have ht := exec_free_none (State.liveCtx_of_badHandle hb)
  exact ⟨_, ht, rfl, rfl, ⟨rfl, rfl⟩, keepsRest_exec ht⟩

/-- Settles O39: the handle is live after the first FINAL too, for the same context. -/
theorem finalIsAPeek : Obligations.FinalIsAPeek := by
  intro s h c hl
  obtain ⟨t, ht, hctx, hres, _⟩ := finalReturnsChecksum s h c hl
  have hl' : LiveHandle t h c := by rwa [LiveHandle, hctx]
  obtain ⟨u, hu, hctx', hres', _⟩ := finalReturnsChecksum t h c hl'
  exact ⟨t, u, ht, hu, BitVec.eq_of_toNat_eq (hres'.trans hres.symm), hctx, hctx'.trans hctx⟩

/-- Settles O40: after FREE the context is the lowest one that is not live, INIT makes it live, and the second FREE releases it. -/
theorem staleHandleReleasesNewOwner : Obligations.StaleHandleReleasesNewOwner := by
  intro s h c hl hnum hlow
  obtain ⟨t1, ht1, hctx1, _⟩ := freeReleases s h c hl
  have hfree : t1.ctx[h - 1]? = some { sum1 := c.sum1, sum2 := c.sum2, live := false } := by
    rw [hctx1]; exact getElem?_set_of_liveHandle hl _
  have hlow1 : ∀ j d, j < h - 1 → t1.ctx[j]? = some d → d.live = true := fun j d hj hd => by
    rw [hctx1, List.getElem?_set_ne (Nat.ne_of_gt hj)] at hd
    exact hlow j d hj hd
  have hnum1 : t1.numCtx ≤ 255 := by rw [exec_numCtx ht1]; exact hnum
  obtain ⟨t2, ht2, hctx2, hres2, ⟨hcode2, _⟩, _⟩ := initSeedsLowestFree t1 (h - 1) _ hnum1 hfree rfl hlow1
  have hl2 : LiveHandle t2 h seededContext := by
    refine ⟨hl.1, ?_, rfl⟩
    rw [hctx2, List.getElem?_set_self (List.getElem?_eq_some_iff.mp hfree).1]; rfl
  obtain ⟨t3, ht3, hctx3, _, ⟨hcode3, _⟩, _⟩ := freeReleases t2 h _ hl2
  have hbad3 : BadHandle t3 h := .inr (.inr ⟨_, by rw [hctx3]; exact getElem?_set_of_liveHandle hl2 _, rfl⟩)
  obtain ⟨t4, ht4, _, _, ⟨hcode4, _⟩, _⟩ := finalInvalidArgument t3 h hbad3
  exact ⟨t1, t2, t3, t4, ht1, ht2, hres2.trans (Nat.sub_add_cancel hl.1), hcode2, ht3, hcode3, ht4, hcode4⟩

end Sys2Proof.Machine
end

section
/-! SUPPORT. A buffer folded in two pieces (41_commands.md R127): the second UPDATE reads the bytes the whole one would, and folds
them into the sums the first one left. -/

open Sys2Proof.Claims

namespace Sys2Proof.Machine

section

variable {s t : State} {h : Nat} {c : Context}

/-- Where no byte is a draw, the bytes a buffer holds depend on data memory only (R60). -/
theorem bytesFrom_congr (hs : NoDraws s) (ht : NoDraws t) (hmem : t.mem = s.mem) (a : Word) (k : Nat) :
    t.bytesFrom a k = s.bytesFrom a k := by
  have stored : ∀ {u : State}, NoDraws u → ∀ b, u.byteAt b = Memory.read u.mem b.toNat := fun hu b =>
    byteAt_of_not_draw (by simp [State.isDraw, hu.1, hu.2])
  simp only [State.bytesFrom, stored hs, stored ht, hmem]

theorem readableFrom_congr (hparams : t.params = s.params) (a : Word) (k : Nat) :
    t.ReadableFrom a k ↔ s.ReadableFrom a k := by
  simp only [State.ReadableFrom, State.readable, hparams]

theorem allReadable_withBuffer (s : State) (a n : Word) : AllReadable (withBuffer s a n) ↔ s.ReadableFrom a n.toNat := Iff.rfl

theorem bufferBytes_withBuffer (s : State) (a n : Word) : (withBuffer s a n).bufferBytes = s.bytesFrom a n.toNat := rfl

/-- UPDATE of a readable buffer given by its address and its number of bytes. -/
theorem exec_update_withBuffer {a : Word} {k : Nat} (hl : LiveHandle s h c) (hk : k < 2 ^ 32) (hnull : a = 0 → k = 0)
    (hspace : a.toNat + k ≤ 2 ^ 32) (hr : s.ReadableFrom a k) :
    ∃ t, exec (.update h) (withBuffer s a (BitVec.ofNat 32 k)) = .next t ∧
      t.ctx = s.ctx.set (h - 1) (c.folded (s.bytesFrom a k)) ∧ t.code = 0 := by
  have htoNat : (BitVec.ofNat 32 k).toNat = k := by rw [BitVec.toNat_ofNat, Nat.mod_eq_of_lt hk]
  have hin : BufferInSpace (withBuffer s a (BitVec.ofNat 32 k)) := by
    refine ⟨fun ⟨ha, hlen⟩ => hlen ?_, ?_⟩
    · exact congrArg (BitVec.ofNat 32) (hnull ha)
    · simpa only [withBuffer, htoNat] using hspace
  have hread : AllReadable (withBuffer s a (BitVec.ofNat 32 k)) := by rwa [allReadable_withBuffer, htoNat]
  obtain ⟨t, ht, hctx, hcode⟩ := exec_update_folded (s := withBuffer s a (BitVec.ofNat 32 k)) hl hin hread
  rw [bufferBytes_withBuffer, htoNat] at hctx
  exact ⟨t, ht, hctx, hcode⟩

/-- The address after the first `m` bytes of a buffer that is not at the null address: it is null only where the buffer ends at the
top of memory (R123). -/
theorem bufferEnd_toNat {a : Word} {m n : Nat} (ha : a ≠ 0) (hspace : a.toNat + (m + n) ≤ 2 ^ 32) :
    (a + BitVec.ofNat 32 m = 0 → n = 0) ∧ (a + BitVec.ofNat 32 m).toNat + n ≤ 2 ^ 32 := by
  have hpos : a.toNat ≠ 0 := fun e => ha (BitVec.eq_of_toNat_eq e)
  have hend : (a + BitVec.ofNat 32 m).toNat = (a.toNat + m) % 2 ^ 32 := by simp [BitVec.toNat_add]
  refine ⟨fun hz => ?_, by omega⟩
  have hzero : (a.toNat + m) % 2 ^ 32 = 0 := by rw [← hend, hz]; rfl
  omega

end

/-- Settles O38: the bytes of the whole are those of the first piece and then of the second, and so are the folds. -/
theorem chunkingDoesNotMatter : Obligations.ChunkingDoesNotMatter := by
  intro s h c a m n hl hs ha hmn hspace hread
  have hr : s.ReadableFrom a (m + n) := by
    have hlen : (BitVec.ofNat 32 (m + n)).toNat = m + n := by rw [BitVec.toNat_ofNat, Nat.mod_eq_of_lt hmn]
    rwa [allReadable_withBuffer, hlen] at hread
  obtain ⟨hr1, hr2⟩ := (s.readableFrom_add a m n).mp hr
  obtain ⟨hnull2, hspace2⟩ := bufferEnd_toNat ha hspace
  obtain ⟨u, hu, hctxu, hcodeu⟩ := exec_update_withBuffer hl hmn (fun e => absurd e ha) hspace hr
  obtain ⟨t1, ht1, hctx1, hcode1⟩ := exec_update_withBuffer hl (by omega) (fun e => absurd e ha) (by omega) hr1
  obtain ⟨_, _, _, hmem, _, hparams, _⟩ := keepsRest_exec ht1
  have hl1 : LiveHandle t1 h (c.folded (s.bytesFrom a m)) :=
    ⟨hl.1, by rw [hctx1]; exact getElem?_set_of_liveHandle hl _, hl.2.2⟩
  obtain ⟨t2, ht2, hctx2, hcode2⟩ :=
    exec_update_withBuffer hl1 (by omega) hnull2 hspace2 ((readableFrom_congr hparams _ _).mpr hr2)
  refine ⟨t1, t2, u, ht1, hcode1, ht2, hcode2, hu, hcodeu, ?_⟩
  have hbytes := bytesFrom_congr hs (noDraws_exec ht1 hs) hmem (a + BitVec.ofNat 32 m) n
  calc t2.ctx
      = (s.ctx.set (h - 1) (c.folded (s.bytesFrom a m))).set (h - 1)
          ((c.folded (s.bytesFrom a m)).folded (s.bytesFrom (a + BitVec.ofNat 32 m) n)) := by rw [hctx2, hctx1, hbytes]
    _ = s.ctx.set (h - 1) (c.folded (s.bytesFrom a (m + n))) := by
        rw [List.set_set, ← Context.folded_append, ← State.bytesFrom_add]
    _ = u.ctx := hctxu.symm

end Sys2Proof.Machine
end

section
/-! SUPPORT. The commands see ADDR and LEN through their latches only (10_state.md R27, R28, R36; 41_commands.md R112). -/

open Sys2Proof.Claims

namespace Sys2Proof.Machine

/-- The machine with other values in ADDR and LEN. -/
def State.withOperands (a n : Word) (s : State) : State := { s with addr := a, len := n }

section

variable (s : State) (a n : Word)

theorem modifyCtx_withOperands (h : Nat) (g : Context → Context) :
    (s.withOperands a n).modifyCtx h g = (s.modifyCtx h g).withOperands a n := by
  unfold State.modifyCtx; split <;> rfl

theorem commit_withOperands (h : Nat) : (s.withOperands a n).commit h = (s.commit h).withOperands a n := by
  rw [State.commit_eq, State.commit_eq, modifyCtx_withOperands]; rfl

/-- The pipeline carries ADDR and LEN along. -/
theorem runMicros_withOperands (ms : List Micro) :
    runMicros ms (s.withOperands a n) = (runMicros ms s).map (State.withOperands a n) := by
  refine (State.runMicros_congr (s := s) (t := s.withOperands a n) ms fun _ => rfl).trans ?_
  cases hr : runMicros ms s with
  | none => rfl
  | some u =>
    rw [Option.map_some, Option.map_some, State.runMicros_frame hr]
    rfl

/-- Every command carries ADDR and LEN along. -/
theorem exec_withOperands (i : Instr) : exec i (s.withOperands a n) = mapNext (State.withOperands a n) (exec i s) := by
  have hlive : ∀ h, (s.withOperands a n).liveCtx h = s.liveCtx h := fun _ => rfl
  have hnull : (s.withOperands a n).nullPointer = s.nullPointer := rfl
  have hwraps : (s.withOperands a n).bufferWraps = s.bufferWraps := rfl
  have hlen : (s.withOperands a n).bufferLen = s.bufferLen := rfl
  have hload : ∀ c, (s.withOperands a n).load c = (s.load c).withOperands a n := fun _ => rfl
  have hparams : (s.withOperands a n).params = s.params := rfl
  cases i with
  | init =>
    have hfirst : (s.withOperands a n).firstFree = s.firstFree := rfl
    simp only [exec, execInit, hfirst]
    cases s.firstFree with
    | none => rfl
    | some h => simp only [modifyCtx_withOperands]; rfl
  | update h =>
    simp only [exec, execUpdate, hlive, hnull, hwraps, hlen, hload, hparams, runMicros_withOperands]
    cases s.liveCtx h with
    | none => rfl
    | some c =>
      dsimp only
      split_ifs
      · rfl
      · rfl
      · rfl
      · cases runMicros (plan s.bufferLen s.params.schedule 0) (s.load c) with
        | none => rfl
        | some u => simp only [Option.map_some, commit_withOperands]; rfl
  | final h =>
    simp only [exec, execFinal, hlive]
    cases s.liveCtx h <;> rfl
  | free h =>
    simp only [exec, execFree, hlive]
    cases s.liveCtx h with
    | none => rfl
    | some c => simp only [modifyCtx_withOperands]; rfl

end

/-- Settles O44, by `exec_withOperands`. -/
theorem commandsReadOnlyLatches : Obligations.CommandsReadOnlyLatches := by
  intro i s t a n h
  exact (exec_withOperands s a n i).trans (by rw [h]; rfl)

end Sys2Proof.Machine
end

section
/-! SUPPORT. The issue of a command and its completion as steps (41_commands.md R111–R117; 70_reset_and_hazards.md R200). -/

open Sys2Proof.Claims

namespace Sys2Proof.Machine

/-- After `withFetchWord` the engine moves. -/
theorem engineTurn_withFetchWord (s : State) (nbits w : Nat) : (s.withFetchWord nbits w).engineTurn = true := rfl

/-- Settles O41: the engine's move is the decoded command's meaning, after `withFetchWord` too. -/
theorem stepRunsDecodedCommand : Obligations.StepRunsDecodedCommand := by
  have hstep : ∀ (s : State) (i : Instr), s.engineTurn = true → decode s.latch.w = .instr i → step s = exec i s :=
    fun s i he hd => (step_engine he).trans (engineMove_instr hd)
  exact ⟨hstep, fun s w i hd => ⟨hstep _ i (engineTurn_withFetchWord s 32 w) hd, rfl, rfl, rfl⟩⟩

/-- Settles O42: the step is the write to CMD, which issues the command. -/
theorem acceptedIssueLatches : Obligations.AcceptedIssueLatches := by
  intro s v rest hb hh
  have hissue : (s.takeStmt rest).writeReg .cmd v = (s.takeStmt rest).issue v := by simp [State.writeReg, hb]
  have ht := step_write_reg (r := .cmd) (engineTurn_idle hb) hh
  rw [hissue] at ht
  exact ⟨_, ht, rfl, rfl, rfl, rfl, rfl, rfl, rfl, rfl, rfl, rfl, rfl, rfl, rfl⟩

/-- Settles O43: the step is the write to CMD, which sets OVR. -/
theorem cmdWriteWhileBusyIsDropped : Obligations.CmdWriteWhileBusyIsDropped := by
  intro s v rest hb hdelay hh
  have he : s.engineTurn = false := by simp [State.engineTurn, hdelay, hh]
  have hdropped : (s.takeStmt rest).writeReg .cmd v = { s.takeStmt rest with status := s.status.overrun } := by
    simp [State.writeReg, hb]
  have ht := step_write_reg (r := .cmd) he hh
  rw [hdropped] at ht
  exact ⟨_, ht, congrArg (Status.mk · true) hb, rfl, rfl, rfl, rfl, rfl, rfl, rfl, rfl, rfl, rfl, rfl, rfl⟩

/-! ### Completion -/

/-- The host has no statement that is refused: none that meets the window but for a word at a register (R56). -/
def NoneRefused (base : Nat) (host : List HostStmt) : Prop :=
  ∀ st ∈ host, ∀ a z, (st = .read a z ∨ ∃ v, st = .write a z v) → decodeAccess base a z ≠ .bad

/-- A statement that is not refused is served. -/
theorem exists_hostMove {st : HostStmt} {s : State}
    (h : ∀ a z, (st = .read a z ∨ ∃ v, st = .write a z v) → decodeAccess s.params.regBase a z ≠ .bad) :
    ∃ t, hostMove st s = .next t := by
  cases st with
  | write a z v =>
    cases hd : decodeAccess s.params.regBase a z with
    | bad => exact absurd hd (h a z (.inr ⟨v, rfl⟩))
    | outside => simp only [hostMove, hd]; exact ⟨_, rfl⟩
    | reg r => simp only [hostMove, hd]; exact ⟨_, rfl⟩
  | read a z =>
    cases hd : decodeAccess s.params.regBase a z with
    | bad => exact absurd hd (h a z (.inl rfl))
    | outside => simp only [hostMove, hd]; exact ⟨_, rfl⟩
    | reg r => simp only [hostMove, hd]; exact ⟨_, rfl⟩
  | wait => exact ⟨_, rfl⟩
  | store a v => exact ⟨_, rfl⟩
  | load a => exact ⟨_, rfl⟩
  | reset => exact ⟨_, rfl⟩

/-- A statement served beside a command in flight is a reset, or leaves the command in flight as long as it was; only WAIT stays
in the host's list. -/
theorem hostMove_busy {st : HostStmt} {s t : State} (h : hostMove st s = .next t) (hb : s.status.busy = true) :
    t.status.busy = false ∨
      (t.status.busy = true ∧ t.delay = s.delay ∧ t.params = s.params ∧ (t.host = s.host ∨ t.host = st :: s.host)) := by
  rcases hostMove_cases h with rfl | ⟨_, _, v, r, _, _, rfl⟩ | ⟨_, _, _, _, _, rfl⟩ | ⟨rfl, rfl⟩ | ⟨_, _, _, rfl⟩ |
    ⟨_, _, rfl⟩ | ⟨_, rfl⟩
  · exact .inr ⟨hb, rfl, rfl, .inl rfl⟩
  · rcases writeReg_cases s r v with ⟨_, _, e⟩ | ⟨_, hidle, _⟩ | ⟨_, e⟩ | ⟨_, e⟩ | e
    · rw [e]; exact .inr ⟨hb, rfl, rfl, .inl rfl⟩
    · simp [hb] at hidle
    · rw [e]; exact .inr ⟨hb, rfl, rfl, .inl rfl⟩
    · rw [e]; exact .inr ⟨hb, rfl, rfl, .inl rfl⟩
    · rw [e]; exact .inr ⟨hb, rfl, rfl, .inl rfl⟩
  · exact .inr ⟨hb, rfl, rfl, .inl rfl⟩
  · exact .inr ⟨hb, rfl, rfl, .inr (by simp [hb])⟩
  · exact .inr ⟨hb, rfl, rfl, .inl rfl⟩
  · exact .inr ⟨hb, rfl, rfl, .inl rfl⟩
  · exact .inl rfl

/-- The engine's move always completes the command (R117). -/
theorem exists_engineMove (s : State) : ∃ t, engineMove s = .next t ∧ t.status.busy = false := by
  have htotal : ∃ t, engineMove s = .next t := by
    cases hf : s.fetch with
    | instr i => rw [engineMove_instr hf]; exact exec_total i s
    | illegal why => exact ⟨_, engineMove_illegal hf⟩
  obtain ⟨t, ht⟩ := htotal
  exact ⟨t, ht, congrArg Status.busy (engineMove_status ht)⟩

/-- A step with a command in flight ends it, or serves a statement that brings the engine's move nearer. -/
theorem step_busy {s : State} (hb : s.status.busy = true) (hok : NoneRefused s.params.regBase s.host) :
    ∃ t, step s = .next t ∧ (t.status.busy = false ∨
      (t.status.busy = true ∧ s.delay = t.delay + 1 ∧ NoneRefused t.params.regBase t.host)) := by
  cases he : s.engineTurn with
  | true =>
    obtain ⟨t, ht, hidle⟩ := exists_engineMove s
    exact ⟨t, (step_engine he).trans ht, .inl hidle⟩
  | false =>
    obtain ⟨hdelay, hhost⟩ : s.delay ≠ 0 ∧ s.host ≠ [] := by simpa [State.engineTurn, hb] using he
    obtain ⟨st, rest, hh⟩ := List.exists_cons_of_ne_nil hhost
    obtain ⟨t, ht⟩ := exists_hostMove (s := s.takeStmt rest) (hok st (by simp [hh]))
    refine ⟨t, (step_hostMove he hh).trans ht, (hostMove_busy ht hb).imp_right ?_⟩
    rintro ⟨hbusy, hdelay', hparams, hhost'⟩
    rw [State.takeStmt_delay] at hdelay'
    refine ⟨hbusy, by omega, fun st' hst => ?_⟩
    rw [hparams]
    refine hok st' ?_
    rw [hh]
    rcases hhost' with e | e <;> rw [e] at hst
    · exact List.mem_cons_of_mem st hst
    · exact hst

/-- A command in flight completes within `delay + 1` steps: each step ends it or takes one from the delay. -/
theorem run_completes (d : Nat) : ∀ {s : State}, s.delay = d → s.status.busy = true → NoneRefused s.params.regBase s.host →
    ∃ k, k ≤ d + 1 ∧ ∃ t : State, Host.Core.run Sys2Proof.core k s = .next t ∧ t.status.busy = false := by
  induction d with
  | zero =>
    intro s hd hb hok
    obtain ⟨t, ht, hidle | ⟨_, hdelay, _⟩⟩ := step_busy hb hok
    · exact ⟨1, le_rfl, t, core_run_succ ht 0, hidle⟩
    · omega
  | succ d ih =>
    intro s hd hb hok
    obtain ⟨t, ht, hidle | ⟨hbusy, hdelay, hok'⟩⟩ := step_busy hb hok
    · exact ⟨1, by omega, t, core_run_succ ht 0, hidle⟩
    · obtain ⟨k, hk, u, hu, hidle⟩ := ih (s := t) (by omega) hbusy hok'
      exact ⟨k + 1, by omega, u, (core_run_succ ht k).trans hu, hidle⟩

/-- Settles O51, by `run_completes`. -/
theorem completionIsCertain : Obligations.CompletionIsCertain := fun _ hb hok => run_completes _ rfl hb hok

end Sys2Proof.Machine
end

section
/-! SUPPORT. The other forms of a reduction and of a single byte: end-around addition, the conditional subtractor on W1, and the
source's path for one byte (42_batched_pipeline.md R150, R151, R154, R155). -/

namespace Sys2Proof.Machine

/-! ### End-around addition -/

theorem endAroundOnce_eq (x : Word) : endAroundOnce x = x.toNat / 65536 + x.toNat % 65536 := by
  have hx : x.toNat < 2 ^ 32 := x.isLt
  simp only [endAroundOnce, BitVec.extractLsb'_toNat, Nat.shiftRight_eq_div_pow]
  omega

/-- The halves of `x` keep its remainder, since `2^16 ≡ 1` (mod 0xFFFF). -/
theorem red_endAroundOnce (x : Word) : red (endAroundOnce x) = red x.toNat := by
  rw [endAroundOnce_eq, red_eq, red_eq]
  omega

/-- Adding bit 16 to the low half keeps the remainder too, and the result fits 16 bits (R155's bounds of `f1` and `f2`). -/
theorem endAround_carry {f : Nat} (hf : f ≤ 0x1FFFE) :
    f / 0x10000 % 2 + f % 0x10000 ≤ 0xFFFF ∧ red (f / 0x10000 % 2 + f % 0x10000) = red f := by
  have hbit : f / 0x10000 % 2 = f / 0x10000 := Nat.mod_eq_of_lt (by omega)
  rw [hbit, red_eq, red_eq]
  omega

/-- The last correction: of the values up to 0xFFFF only 0xFFFF is not canonical. -/
theorem red_of_le {f : Nat} (hf : f ≤ 0xFFFF) : red f = if f = 0xFFFF then 0 else f := by
  split
  · rw [‹f = 0xFFFF›]; rfl
  · exact Nat.mod_eq_of_lt (by omega : f < 65535)

/-- Settles O14: both additions keep the remainder, and the correction makes it canonical. -/
theorem endAroundReduction : Obligations.EndAroundReduction := by
  intro x
  have hf : endAroundOnce x ≤ 0x1FFFE := by
    have hx : x.toNat < 2 ^ 32 := x.isLt
    rw [endAroundOnce_eq]; omega
  obtain ⟨hle, hred⟩ := endAround_carry hf
  rw [← red_endAroundOnce, ← hred, red_of_le hle, redEndAround]

/-! ### One byte -/

theorem Pipe.oneByte_toNat {p : Pipe} (h1 : p.w1.toNat ≤ 0xFFFF) (h2 : p.w2.toNat ≤ 0xFFFF) (b : Byte) :
    ((p.oneByte b).w1.toNat, (p.oneByte b).w2.toNat) = foldByte (p.w1.toNat, p.w2.toNat) b := by
  have hb : b.toNat < 256 := b.isLt
  have hfit : ∀ x, Machine.red x % 2 ^ 32 = Machine.red x := fun x => Nat.mod_eq_of_lt ((red_lt x).trans (by decide))
  have ht : Machine.red (p.w1.toNat + b.toNat) < 65535 := red_lt _
  rw [foldByte_eq_red h1 h2]
  simp only [Pipe.oneByte, BitVec.toNat_ofNat]
  rw [csub_eq_red (by omega), hfit, csub_eq_red (by omega), hfit]

/-- ACC and then RED from sums up to 0xFFFF leave the sums of the per-byte step. -/
theorem Pipe.red_acc_toNat {p : Pipe} (h1 : p.w1.toNat ≤ 0xFFFF) (h2 : p.w2.toNat ≤ 0xFFFF) (b : Byte) :
    ((p.acc b).red.w1.toNat, (p.acc b).red.w2.toNat) = foldByte (p.w1.toNat, p.w2.toNat) b := by
  have hb : b.toNat < 256 := b.isLt
  rw [foldByte_eq_red h1 h2, red_w1_toNat, red_w2_toNat, acc_w1_toNat (by omega), acc_w2_toNat (by omega)]
  simp only [red_eq, Nat.add_mod_mod]

/-- Settles O22: both ways leave the sums of the per-byte step. -/
theorem oneBytePathIsByteStep : Obligations.OneBytePathIsByteStep := by
  intro p b h1 h2
  have hone := Pipe.oneByte_toNat h1 h2 b
  have hsame := hone.trans (Pipe.red_acc_toNat h1 h2 b).symm
  exact ⟨hone, BitVec.eq_of_toNat_eq (congrArg Prod.fst hsame), BitVec.eq_of_toNat_eq (congrArg Prod.snd hsame)⟩

/-! ### The conditional subtractor in RED -/

theorem byteSum_le (bs : List Byte) : byteSum bs ≤ 255 * bs.length := by
  induction bs with
  | nil => exact Nat.le_refl 0
  | cons b bs ih =>
    have hb : b.toNat < 256 := b.isLt
    rw [byteSum_cons, List.length_cons]; omega

theorem byteSum_replicate (n : Nat) (b : Byte) : byteSum (List.replicate n b) = n * b.toNat := by
  induction n with
  | zero => simp
  | succ n ih => rw [List.replicate_succ, byteSum_cons, ih, Nat.add_mul, Nat.one_mul, Nat.add_comm]

/-- What ACC steps of bytes leave in W1 (R153). -/
theorem Pipe.accs_w1 (p : Pipe) (bs : List Byte) : (p.accs bs).w1 = p.w1 + BitVec.ofNat 32 (byteSum bs) := by
  rw [← beat_eq_accs]; rfl

/-- From sums up to 0xFFFF, a run of at most 256 bytes leaves W1 in the domain of `csub` (R154). -/
theorem Pipe.accs_w1_le {p : Pipe} {bs : List Byte} (h1 : p.w1.toNat ≤ 0xFFFF) (hlen : bs.length ≤ 256) :
    (p.accs bs).w1.toNat ≤ 0x1FFFD := by
  have hsum := byteSum_le bs
  rw [accs_w1, BitVec.toNat_add, BitVec.toNat_ofNat]
  omega

theorem Pipe.redShort_eq_red {p : Pipe} (h : p.w1.toNat ≤ 0x1FFFD) : p.redShort = p.red := by
  rw [Pipe.redShort, csub_eq_red h, Pipe.red]

/-- 257 bytes 0xFF from the seed take W1 to 0x1FFFE, the first value outside the domain (R154). -/
theorem accs_replicate_257_w1 :
    ((Pipe.loaded seededContext Latch.atReset).accs (List.replicate 257 0xFF)).w1 = 0x1FFFE := by
  rw [Pipe.accs_w1, byteSum_replicate]; rfl

/-- Settles O21: within 256 bytes W1 stays in the domain of `csub`; the runs that leave it fold bytes 0xFF from the seed. -/
theorem shortReductionDomain : Obligations.ShortReductionDomain := by
  refine ⟨fun p bs h1 hlen => Pipe.redShort_eq_red (Pipe.accs_w1_le h1 hlen), ?_, ?_⟩
  · refine ⟨Pipe.loaded seededContext Latch.atReset, List.replicate 257 0xFF, by decide, List.length_replicate, fun h => ?_⟩
    have hw1 := congrArg Pipe.w1 h
    simp only [Pipe.redShort, Pipe.red, accs_replicate_257_w1] at hw1
    exact absurd hw1 (by decide)
  · exact ⟨Pipe.loaded seededContext Latch.atReset, 0xFF, rfl, rfl, by decide⟩

end Sys2Proof.Machine
end

section
/-! SUPPORT. The schedules as lists of steps: which ones the machine can plan, and how many ACC and RED steps they have
(42_batched_pipeline.md R145, R146, R152, R153; log 10). -/

open Sys2Proof.Claims

namespace Sys2Proof.Machine

/-- A machine that prefers an enabled schedule takes exactly that one. -/
theorem plan_eq_self {ms : List Micro} : ∀ {run rem : Nat}, countsAfter ms run rem = some (0, 0) → plan rem ms run = ms := by
  induction ms with
  | nil =>
    intro run rem h
    obtain ⟨rfl, rfl⟩ : run = 0 ∧ rem = 0 := by simpa using h
    rfl
  | cons m ms ih =>
    intro run rem h
    obtain ⟨c, hc, h⟩ := countsAfter_cons.mp h
    simp only [plan, hc, ih h]

/-- Settles O18: a permitted schedule is the plan that prefers it, and every plan is permitted. -/
theorem plannedSchedulesAreThePermitted : Obligations.PlannedSchedulesAreThePermitted := by
  intro n ms
  rw [permitted_iff]
  constructor
  · exact fun h => ⟨ms, plan_eq_self h⟩
  · rintro ⟨preferred, rfl⟩
    exact countsAfter_plan preferred (Nat.zero_le _)

/-! ### How many steps -/

/-- Where no beat is used, every folded byte is one ACC. -/
theorem bytesFolded_eq_count_acc {ms : List Micro} (h : ∀ k, .beat k ∉ ms) : bytesFolded ms = ms.count .acc := by
  induction ms with
  | nil => rfl
  | cons m ms ih =>
    have hms := ih fun k hk => h k (List.mem_cons_of_mem m hk)
    rw [bytesFolded_cons, hms]
    cases m with
    | acc => rw [List.count_cons_self, Micro.width, Nat.add_comm]
    | red => rw [List.count_cons_of_ne (by decide), Micro.width, Nat.zero_add]
    | beat k => exact absurd List.mem_cons_self (h k)

/-- The RED steps of a schedule that ends with COMMIT enabled: each ends a batch of at least one byte and at most N, the first of
which already has `run` bytes (R146). -/
theorem count_red_bounds {ms : List Micro} : ∀ {run rem : Nat}, run ≤ 5552 → countsAfter ms run rem = some (0, 0) →
    run + rem ≤ 5552 * ms.count .red ∧ ms.count .red ≤ min run 1 + rem := by
  induction ms with
  | nil =>
    intro run rem _ h
    obtain ⟨rfl, rfl⟩ : run = 0 ∧ rem = 0 := by simpa using h
    exact ⟨le_rfl, le_rfl⟩
  | cons m ms ih =>
    intro run rem hrun h
    cases m with
    | acc =>
      obtain ⟨hrem, hlt, h⟩ := countsAfter_acc h
      obtain ⟨hlo, hhi⟩ := ih (by omega) h
      rw [List.count_cons_of_ne (by decide)]
      omega
    | red =>
      obtain ⟨hpos, h⟩ := countsAfter_red h
      obtain ⟨hlo, hhi⟩ := ih (Nat.zero_le _) h
      rw [List.count_cons_self]
      omega
    | beat k =>
      obtain ⟨hk, hrem, hN, h⟩ := countsAfter_beat h
      obtain ⟨hlo, hhi⟩ := ih hN h
      rw [List.count_cons_of_ne (by simp)]
      omega

/-- The reference schedule has no beat (R152). -/
theorem beat_not_mem_referencePlan (n k : Nat) : ∀ run, .beat k ∉ referencePlan n run := by
  induction n with
  | zero => intro run; rw [referencePlan]; split <;> simp
  | succ n ih => intro run; rw [referencePlan]; split <;> simp [ih]

/-- The reference schedule has one RED for each started batch of N bytes (R146, R152). -/
theorem count_red_referencePlan (n : Nat) : ∀ {run : Nat}, run ≤ 5552 →
    (referencePlan n run).count .red = (run + n + 5551) / 5552 := by
  induction n with
  | zero =>
    intro run hrun
    rw [referencePlan]
    split
    case isTrue h0 => simp [h0]
    case isFalse h0 => rw [List.count_singleton_self]; omega
  | succ n ih =>
    intro run hrun
    rw [referencePlan]
    split
    case isTrue hN =>
      rw [List.count_cons_self, List.count_cons_of_ne (by decide), ih (by omega), hN, Config.batchBound]
      omega
    case isFalse hN =>
      have hlt : run < 5552 := Nat.lt_of_le_of_ne hrun hN
      rw [List.count_cons_of_ne (by decide), ih (by omega)]
      omega

/-- Settles O19: REM counts the bytes, and each RED ends a batch. -/
theorem scheduleStepCounts : Obligations.ScheduleStepCounts := by
  refine ⟨fun n ms hn hp => ?_, fun n hn => ?_⟩
  · rw [permitted_iff] at hp
    have hfolded : bytesFolded ms = n := countsAfter_bytesFolded hp
    obtain ⟨hlo, hhi⟩ := count_red_bounds (Nat.zero_le _) hp
    exact ⟨hfolded, fun hbeat => (bytesFolded_eq_count_acc hbeat).symm.trans hfolded, by omega, by omega⟩
  · have hbeat : ∀ k, .beat k ∉ plan n [] 0 := fun k => beat_not_mem_referencePlan n k 0
    have hred : (plan n [] 0).count .red = (0 + n + 5551) / 5552 := count_red_referencePlan n (Nat.zero_le _)
    exact ⟨(bytesFolded_eq_count_acc hbeat).symm.trans (bytesFolded_plan n []), by rw [hred, Nat.zero_add]⟩

/-! ### A beat as ACC steps -/

/-- A beat of one more byte is ACC and then the beat of the others, aborts included (R153, R157). -/
theorem State.beat_succ (s : State) (k : Nat) : s.beat (k + 1) = s.acc.bind (·.beat k) := by
  simp only [State.beat, State.readRun, State.acc]
  cases s.memRead s.pipe.ptr with
  | busError => rfl
  | byte b =>
    simp only [Option.bind_some, State.readRun_pipe, Pipe.acc_ptr, Option.map_map, Function.comp_def, Pipe.beat_cons]

theorem State.beat_eq_runMicros_acc (k : Nat) : ∀ s : State, s.beat k = runMicros (List.replicate k .acc) s := by
  induction k with
  | zero => intro s; simp [State.beat, State.readRun, Pipe.beat_eq_accs, runMicros]
  | succ k ih =>
    intro s
    rw [State.beat_succ, List.replicate_succ, runMicros, Micro.run]
    cases s.acc with
    | none => rfl
    | some t => exact ih t

theorem runMicros_singleton (m : Micro) (s : State) : runMicros [m] s = m.run s := by
  cases h : m.run s <;> simp [runMicros, h]

/-- Settles O20: a beat is ACC on each byte in turn, and its reads stop at an unreadable byte. -/
theorem beatEqualsAccs : Obligations.BeatEqualsAccs := by
  refine ⟨Pipe.beat_eq_accs, fun k run rem c => ?_, fun s k => ?_, fun s k i hi hr => ?_⟩
  · simp only [Micro.counts, Option.ite_none_right_eq_some, Option.some.injEq, and_assoc, eq_comm (a := c)]
    rfl
  · rw [runMicros_singleton]
    exact State.beat_eq_runMicros_acc k s
  · rcases State.beat_cases s k with ⟨_, e⟩ | ⟨hall, _⟩
    · exact e
    · exact absurd (hall i hi) (by simp [hr])

end Sys2Proof.Machine
end

section
/-! SUPPORT. The working registers along enabled steps from LOAD: exact sums within N, and what PTR, REM and RUN count
(42_batched_pipeline.md R142, R143, R147, R148, R149). -/

open Sys2Proof.Claims

namespace Sys2Proof.Machine

/-! ### W1 and W2 -/

/-- Within N the bounds of the batch rule are those at N (R106, R148). -/
theorem Pipe.Holds.le_max {p : Pipe} {run : Nat} {x : Nat × Nat} (h : p.Holds run x) (hrun : run ≤ 5552) :
    p.w1.toNat ≤ 1481295 ∧ p.w2.toNat ≤ 4294773495 := by
  have hsq : run * (run + 1) ≤ 5552 * 5553 := Nat.mul_le_mul hrun (Nat.succ_le_succ hrun)
  have h1 := h.w1_le
  have h2 := h.w2_le
  omega

/-- Below N an ACC adds to both sums exactly (R148). -/
theorem Pipe.Holds.acc_exact {p : Pipe} {run : Nat} {x : Nat × Nat} (h : p.Holds run x) (hrun : run < 5552) (b : Byte) :
    (p.acc b).w1.toNat = p.w1.toNat + b.toNat ∧ (p.acc b).w2.toNat = p.w2.toNat + (p.w1.toNat + b.toNat) := by
  have hb : b.toNat < 256 := b.isLt
  have hsq : run * (run + 1) ≤ 5551 * 5552 := Nat.mul_le_mul (by omega) (by omega)
  have h1 := h.w1_le
  have h2 := h.w2_le
  exact ⟨acc_w1_toNat (by omega), acc_w2_toNat (by omega)⟩

/-- Enabled steps keep RUN within N (R145). -/
theorem countsAfter_run_le {ms : List Micro} : ∀ {run rem run' rem' : Nat}, run ≤ 5552 →
    countsAfter ms run rem = some (run', rem') → run' ≤ 5552 := by
  induction ms with
  | nil =>
    intro run rem run' rem' hrun h
    obtain ⟨rfl, _⟩ : run = run' ∧ rem = rem' := by simpa using h
    exact hrun
  | cons m ms ih =>
    intro run rem run' rem' _ h
    obtain ⟨c, hc, h⟩ := countsAfter_cons.mp h
    exact ih (counts_run_le hc) h

/-- Settles O16: `Pipe.Holds` is kept from LOAD on, and RUN stays within N. -/
theorem workingRegistersNeverOverflow : Obligations.WorkingRegistersNeverOverflow := by
  intro s t c ms n run rem hc hr
  have hholds := runMicros_holds hc hr (Pipe.holds_loaded c s.latch)
  obtain ⟨hmax1, hmax2⟩ := hholds.le_max (countsAfter_run_le (Nat.zero_le _) hc)
  refine ⟨hholds.w1_le, ?_, hmax1, hmax2, fun hrun b => hholds.acc_exact hrun b⟩
  have h2 := hholds.w2_le
  rw [Nat.mul_assoc 255]
  omega

/-! ### PTR, REM and RUN -/

theorem Pipe.accs_rem (p : Pipe) (bs : List Byte) : (p.accs bs).rem = p.rem - BitVec.ofNat 32 bs.length := by
  rw [← beat_eq_accs]; rfl

theorem Pipe.accs_run (p : Pipe) (bs : List Byte) : (p.accs bs).run = p.run + BitVec.ofNat 13 bs.length := by
  rw [← beat_eq_accs]; rfl

/-- REM and RUN hold the counts a schedule is checked with. -/
def Pipe.Counts (p : Pipe) (c : Nat × Nat) : Prop := p.run.toNat = c.1 ∧ p.rem.toNat = c.2

/-- The counts follow an enabled step that reads: RUN fits its 13 bits, and REM does not fall below 0 (R142, R143, R153). -/
theorem run_counts {m : Micro} {s u : State} {run rem : Nat} {c : Nat × Nat} (hc : m.counts run rem = some c)
    (hu : m.run s = some u) (h : s.pipe.Counts (run, rem)) : u.pipe.Counts c := by
  obtain ⟨hrun, hrem⟩ := h
  rcases State.run_cases m s with ⟨_, e⟩ | ⟨_, e⟩ <;> rw [e] at hu
  · cases hu
  · obtain rfl := Option.some.inj hu
    rcases counts_cases hc with ⟨rfl, rfl⟩ | ⟨hafter, hle, hN, rfl⟩
    · exact ⟨rfl, hrem⟩
    · have hlt : s.pipe.rem.toNat < 2 ^ 32 := s.pipe.rem.isLt
      simp only at hrun hrem
      simp only [Pipe.Counts, hafter, Pipe.accs_run, Pipe.accs_rem, State.length_bytesFrom, BitVec.toNat_add,
        BitVec.toNat_sub, BitVec.toNat_ofNat, hrun, hrem]
      omega

/-- REM and RUN along enabled steps. -/
theorem runMicros_counts {ms : List Micro} : ∀ {s t : State} {run rem : Nat} {c : Nat × Nat},
    countsAfter ms run rem = some c → runMicros ms s = some t → s.pipe.Counts (run, rem) → t.pipe.Counts c := by
  induction ms with
  | nil =>
    intro s t run rem c hc hr h
    obtain rfl : (run, rem) = c := by simpa using hc
    obtain rfl : s = t := by simpa [runMicros] using hr
    exact h
  | cons m ms ih =>
    intro s t run rem c hc hr h
    obtain ⟨d, hm, hc⟩ := countsAfter_cons.mp hc
    obtain ⟨u, hu, hr⟩ := State.runMicros_cons.mp hr
    exact ih hc hr (run_counts hm hu h)

/-- PTR along steps that read. -/
theorem runMicros_ptr {ms : List Micro} : ∀ {s t : State}, runMicros ms s = some t →
    t.pipe.ptr = s.pipe.ptr + BitVec.ofNat 32 (bytesFolded ms) := by
  induction ms with
  | nil =>
    intro s t hr
    obtain rfl : s = t := by simpa [runMicros] using hr
    simp
  | cons m ms ih =>
    intro s t hr
    obtain ⟨u, hu, hr⟩ := State.runMicros_cons.mp hr
    rw [ih hr, State.run_ptr hu, bytesFolded_cons, BitVec.ofNat_add, BitVec.add_assoc]

/-- The first `j` bytes of the buffer are the `j` bytes from its address. -/
theorem take_bufferBytes (s : State) {j : Nat} (hj : j ≤ s.bufferLen) :
    s.bufferBytes.take j = s.bytesFrom s.latch.addr j := by
  rw [State.bufferBytes, ← List.map_take, List.take_range, Nat.min_eq_left hj]; rfl

/-- Settles O17: the steps folded `n - rem` bytes from the buffer's start, and `Pipe.Holds` speaks of their fold. -/
theorem workingRegistersCongruent : Obligations.WorkingRegistersCongruent := by
  intro s t c ms run rem hc hr
  have hfolded : bytesFolded ms = s.latch.len.toNat - rem := Nat.eq_sub_of_add_eq (countsAfter_bytesFolded hc)
  have hholds := runMicros_holds hc hr (Pipe.holds_loaded c s.latch)
  have hptr := runMicros_ptr hr
  obtain ⟨hrun, hrem⟩ := runMicros_counts hc hr ⟨rfl, rfl⟩
  have htake : s.bufferBytes.take (s.latch.len.toNat - rem) = s.bytesFrom s.latch.addr (s.latch.len.toNat - rem) :=
    take_bufferBytes s (Nat.sub_le _ _)
  rw [hfolded] at hholds hptr
  rw [htake]
  exact ⟨hholds.w1_mod, hholds.w2_mod, hrem, hrun, hptr⟩

/-! ### COMMIT -/

/-- Settles O15, by `runMicros_commit_folded`. -/
theorem permittedSchedulesCommitFold : Obligations.PermittedSchedulesCommitFold := by
  intro s h c ms hl hlen hr hp
  have hcommit := runMicros_commit_folded hl (Nat.one_le_iff_ne_zero.mp hlen) hr ((permitted_iff _ _).mp hp)
  obtain ⟨_, _, hlive⟩ := hl
  rwa [Context.folded, hlive] at hcommit

end Sys2Proof.Machine
end

section
/-! SUPPORT. The reset state and the reset of a running machine: the values of 70_reset_and_hazards.md R185, what R186 abandons,
and the invariant at reset (10_state.md R21; 00_scope.md R10). -/

namespace Sys2Proof.Machine

namespace State

@[simp] theorem resetWith_numCtx (n : Nat) (p : Params) : (resetWith n p).numCtx = n := List.length_replicate

/-- No context is live after reset (R185). -/
theorem resetWith_not_live (n : Nat) (p : Params) : ∀ c ∈ (resetWith n p).ctx, c.live = false :=
  fun _ hc => congrArg Context.live (List.eq_of_mem_replicate hc)

/-- A reset during operation leaves the context file of a fresh machine with as many contexts (R186). -/
theorem resetDevice_ctx_eq_resetWith (s : State) : s.resetDevice.ctx = (resetWith s.numCtx s.params).ctx := rfl

end State

/-- Settles O56: NUM_CTX and the contexts by their lemmas, STATUS by its word with both flags clear. -/
theorem resetValues : Obligations.ResetValues := by
  intro n p
  have hstatus : Status.word { busy := false, ovr := false } = 0 := by decide
  have hconfig : (State.resetWith n p).readReg .config = BitVec.ofNat 32 n :=
    congrArg (BitVec.ofNat 32) (State.resetWith_numCtx n p)
  exact ⟨State.resetWith_numCtx n p, State.resetWith_not_live n p, rfl, rfl, hstatus, rfl, rfl, hconfig⟩

/-- A reset at the head of the host's list is the next step whenever the engine does not move, busy or idle (R186). -/
theorem step_reset {s : State} {rest : List HostStmt} (he : s.engineTurn = false) (hh : s.host = .reset :: rest) :
    step s = .next (s.takeStmt rest).resetDevice := by
  rw [step_host he, hostTurn_cons hh]
  rfl

/-- Settles O57: the step is `resetDevice`, whose contexts are those of a fresh machine. -/
theorem resetAbandonsCommand : Obligations.ResetAbandonsCommand := by
  intro s rest he hh
  have hlive : ∀ c ∈ (s.takeStmt rest).resetDevice.ctx, c.live = false := by
    rw [State.resetDevice_ctx_eq_resetWith]
    exact State.resetWith_not_live _ _
  exact ⟨_, step_reset he hh, rfl, hlive, State.resetDevice_numCtx _, rfl, rfl, rfl, rfl, rfl, rfl, rfl⟩

/-- The reset state meets the invariant for every legal NUM_CTX and every aligned window: no context is live, CODE is OK,
the engine is idle and memory is empty. -/
theorem machineInv_resetWith {n : Nat} {p : Params} (hlo : 1 ≤ n) (hhi : n ≤ 255) (hbase : p.regBase % 32 = 0) :
    MachineInv (State.resetWith n p) = true := by
  have hsums : ∀ c ∈ (State.resetWith n p).ctx, c.sumsLegal = true :=
    fun c hc => sumsLegal_of_not_live (State.resetWith_not_live n p c hc)
  have hrun : (State.resetWith n p).pipe.run.toNat ≤ 5552 := Nat.zero_le _
  have hidle : (State.resetWith n p).status.busy = false := rfl
  exact (machineInv_iff _).mpr ⟨by simpa using hlo, by simpa using hhi, hbase, hsums, codeLegal_word .ok, hrun,
    .inr ⟨rfl, rfl⟩, rfl, by simp [hidle]⟩

/-- Settles O60: `State.reset` is the reset state with two contexts and the window at 0. -/
theorem invariantHoldsAtReset : Obligations.InvariantHoldsAtReset :=
  ⟨machineInv_resetWith (by decide) (by decide) rfl, fun _ _ hlo hhi hbase => machineInv_resetWith hlo hhi hbase⟩

end Sys2Proof.Machine
end
